-- ==== Sys2Proof/Word.lean ====
section
/-! DEFINITION. The words of the machine: register values, addresses and the pc are 32-bit patterns
(00_scope.md R4 and its section 6), memory cells are 8-bit patterns (20_memory.md R40), register
indices are 5-bit fields (30_encoding.md R71). -/

namespace Sys2Proof

/-- A 32-bit pattern: a register value, an address, the pc, an instruction word (R4, R11, R15, R70). -/
abbrev Word := BitVec 32

/-- One byte of memory (R40). -/
abbrev Byte := BitVec 8

/-- A 5-bit unsigned register index, 0 .. 31 (R71). -/
abbrev Reg := BitVec 5

end Sys2Proof
end

