-- ==== Sys2Proof/Config.lean ====
section
/-! DEFINITION. The two open parameters of the hardware (00_scope.md R5, R6). The spec needs no free
value: "Nothing in this hardware returns any value" (93_implementation_defined.md section 1). -/

namespace Sys2Proof

/-- MEM_SIZE (R5) and MAX_STEPS (R6). They are fixed for a machine; every State carries its own pair, so that a
statement about every state is a statement about every choice of them. DESIGN CHOICE, log 3. -/
structure Config where
  /-- MEM_SIZE, the memory capacity in bytes (R5). -/
  memSize : Nat
  /-- MAX_STEPS, the bound on the instructions one run() may execute (R6). -/
  maxSteps : Nat
  deriving DecidableEq, Repr

/-- The constraints of R5: 4 <= MEM_SIZE <= 2^32 and MEM_SIZE mod 4 = 0. R6 puts none on MAX_STEPS. -/
abbrev Config.Legal (c : Config) : Prop :=
  4 ≤ c.memSize ∧ c.memSize ≤ 2 ^ 32 ∧ c.memSize % 4 = 0

/-- The parameters of the state right after reset: the values 95_test_vectors.md uses, its own choice of the open
parameters. DESIGN CHOICE, log 4, unsafe: no statement rests on them. -/
def Config.initial : Config where
  memSize := 65536
  maxSteps := 1000

end Sys2Proof
end

