-- ==== Sys2Proof/Decode.lean ====
section
/-! DEFINITION. The decoder (30_encoding.md R70 to R86), total on every word and on any list of bytes, which rejects by
name; the opcode map of R82 as data; and the encoder (R87), written from the same tables. -/

namespace Sys2Proof

/-! ## Fields of a word (R71 to R79) -/

/-- inst[6:0]. -/
def opcodeOf (w : Word) : BitVec 7 := w.extractLsb' 0 7
/-- inst[11:7]. -/
def rdOf (w : Word) : Reg := w.extractLsb' 7 5
/-- inst[14:12]. -/
def funct3Of (w : Word) : BitVec 3 := w.extractLsb' 12 3
/-- inst[19:15]. -/
def rs1Of (w : Word) : Reg := w.extractLsb' 15 5
/-- inst[24:20]: rs2, and the shift amount of the shift-immediate form (R77). -/
def rs2Of (w : Word) : Reg := w.extractLsb' 20 5
/-- inst[31:25]. -/
def funct7Of (w : Word) : BitVec 7 := w.extractLsb' 25 7

/-- The 12 bits of the I-immediate, inst[31:20] (R72). -/
def immIOf (w : Word) : BitVec 12 := w.extractLsb' 20 12
/-- The 12 bits of the S-immediate, inst[31:25] ++ inst[11:7] (R73). -/
def immSOf (w : Word) : BitVec 12 := w.extractLsb' 25 7 ++ w.extractLsb' 7 5
/-- The 13 bits of the B-immediate, inst[31] ++ inst[7] ++ inst[30:25] ++ inst[11:8] ++ 0 (R74). -/
def immBOf (w : Word) : BitVec 13 :=
  w.extractLsb' 31 1 ++ w.extractLsb' 7 1 ++ w.extractLsb' 25 6 ++ w.extractLsb' 8 4 ++ 0#1
/-- The upper 20 bits of the U-immediate, inst[31:12] (R75). -/
def immUOf (w : Word) : BitVec 20 := w.extractLsb' 12 20
/-- The 21 bits of the J-immediate, inst[31] ++ inst[19:12] ++ inst[20] ++ inst[30:21] ++ 0 (R76). -/
def immJOf (w : Word) : BitVec 21 :=
  w.extractLsb' 31 1 ++ w.extractLsb' 12 8 ++ w.extractLsb' 20 1 ++ w.extractLsb' 21 10 ++ 0#1
/-- FENCE's fm, inst[31:28] (R78). -/
def fmOf (w : Word) : BitVec 4 := w.extractLsb' 28 4
/-- FENCE's predecessor set, inst[27:24] (R78). -/
def predOf (w : Word) : BitVec 4 := w.extractLsb' 24 4
/-- FENCE's successor set, inst[23:20] (R78). -/
def succOf (w : Word) : BitVec 4 := w.extractLsb' 20 4

/-! ## The decoder -/

/-- Why a word, or a list of bytes, is no instruction: the classes of R83, in the order of its table, and a byte list
shorter than the one instruction length (R70, R86). -/
inductive IllegalEncoding where
  /-- inst[1:0] is not 11. -/
  | notThirtyTwoBit
  /-- A major opcode outside R80. -/
  | unusedMajorOpcode
  /-- JALR with funct3 other than 000. -/
  | jalrFunct3
  /-- BRANCH with funct3 010 or 011 (R159). -/
  | branchFunct3
  /-- LOAD with funct3 011, 110 or 111 (R179). -/
  | loadFunct3
  /-- STORE with funct3 011 to 111 (R179). -/
  | storeFunct3
  /-- A shift by immediate with another inst[31:25]. -/
  | shiftFunct7
  /-- OP with a (funct7, funct3) pair outside R82. -/
  | opFunct
  /-- MISC-MEM with funct3 other than 000 (R191). -/
  | miscMemFunct3
  /-- SYSTEM other than the two words of R79 (R197). -/
  | systemWord
  /-- Fewer than four bytes. -/
  | truncated
  deriving DecidableEq, Repr

/-- BRANCH, major opcode 1100011 (R81). -/
def decodeBranch (w : Word) : Except IllegalEncoding Instr :=
  match funct3Of w with
  | 0b000#3 => .ok (.beq (rs1Of w) (rs2Of w) (immBOf w))
  | 0b001#3 => .ok (.bne (rs1Of w) (rs2Of w) (immBOf w))
  | 0b100#3 => .ok (.blt (rs1Of w) (rs2Of w) (immBOf w))
  | 0b101#3 => .ok (.bge (rs1Of w) (rs2Of w) (immBOf w))
  | 0b110#3 => .ok (.bltu (rs1Of w) (rs2Of w) (immBOf w))
  | 0b111#3 => .ok (.bgeu (rs1Of w) (rs2Of w) (immBOf w))
  | _ => .error .branchFunct3

/-- LOAD, major opcode 0000011 (R81). -/
def decodeLoad (w : Word) : Except IllegalEncoding Instr :=
  match funct3Of w with
  | 0b000#3 => .ok (.lb (rdOf w) (rs1Of w) (immIOf w))
  | 0b001#3 => .ok (.lh (rdOf w) (rs1Of w) (immIOf w))
  | 0b010#3 => .ok (.lw (rdOf w) (rs1Of w) (immIOf w))
  | 0b100#3 => .ok (.lbu (rdOf w) (rs1Of w) (immIOf w))
  | 0b101#3 => .ok (.lhu (rdOf w) (rs1Of w) (immIOf w))
  | _ => .error .loadFunct3

/-- STORE, major opcode 0100011 (R81). -/
def decodeStore (w : Word) : Except IllegalEncoding Instr :=
  match funct3Of w with
  | 0b000#3 => .ok (.sb (rs2Of w) (rs1Of w) (immSOf w))
  | 0b001#3 => .ok (.sh (rs2Of w) (rs1Of w) (immSOf w))
  | 0b010#3 => .ok (.sw (rs2Of w) (rs1Of w) (immSOf w))
  | _ => .error .storeFunct3

/-- SLLI's form, funct3 001 (R77). -/
def decodeShiftLeft (w : Word) : Except IllegalEncoding Instr :=
  match funct7Of w with
  | 0b0000000#7 => .ok (.slli (rdOf w) (rs1Of w) (rs2Of w))
  | _ => .error .shiftFunct7

/-- SRLI's and SRAI's form, funct3 101 (R77). -/
def decodeShiftRight (w : Word) : Except IllegalEncoding Instr :=
  match funct7Of w with
  | 0b0000000#7 => .ok (.srli (rdOf w) (rs1Of w) (rs2Of w))
  | 0b0100000#7 => .ok (.srai (rdOf w) (rs1Of w) (rs2Of w))
  | _ => .error .shiftFunct7

/-- OP-IMM, major opcode 0010011 (R81). -/
def decodeOpImm (w : Word) : Except IllegalEncoding Instr :=
  match funct3Of w with
  | 0b000#3 => .ok (.addi (rdOf w) (rs1Of w) (immIOf w))
  | 0b001#3 => decodeShiftLeft w
  | 0b010#3 => .ok (.slti (rdOf w) (rs1Of w) (immIOf w))
  | 0b011#3 => .ok (.sltiu (rdOf w) (rs1Of w) (immIOf w))
  | 0b100#3 => .ok (.xori (rdOf w) (rs1Of w) (immIOf w))
  | 0b101#3 => decodeShiftRight w
  | 0b110#3 => .ok (.ori (rdOf w) (rs1Of w) (immIOf w))
  | 0b111#3 => .ok (.andi (rdOf w) (rs1Of w) (immIOf w))

/-- OP, major opcode 0110011: the pairs (funct7, funct3) of R81. -/
def decodeOp (w : Word) : Except IllegalEncoding Instr :=
  match funct7Of w, funct3Of w with
  | 0b0000000#7, 0b000#3 => .ok (.add (rdOf w) (rs1Of w) (rs2Of w))
  | 0b0100000#7, 0b000#3 => .ok (.sub (rdOf w) (rs1Of w) (rs2Of w))
  | 0b0000000#7, 0b001#3 => .ok (.sll (rdOf w) (rs1Of w) (rs2Of w))
  | 0b0000000#7, 0b010#3 => .ok (.slt (rdOf w) (rs1Of w) (rs2Of w))
  | 0b0000000#7, 0b011#3 => .ok (.sltu (rdOf w) (rs1Of w) (rs2Of w))
  | 0b0000000#7, 0b100#3 => .ok (.xor (rdOf w) (rs1Of w) (rs2Of w))
  | 0b0000000#7, 0b101#3 => .ok (.srl (rdOf w) (rs1Of w) (rs2Of w))
  | 0b0100000#7, 0b101#3 => .ok (.sra (rdOf w) (rs1Of w) (rs2Of w))
  | 0b0000000#7, 0b110#3 => .ok (.or (rdOf w) (rs1Of w) (rs2Of w))
  | 0b0000000#7, 0b111#3 => .ok (.and (rdOf w) (rs1Of w) (rs2Of w))
  | _, _ => .error .opFunct

/-- MISC-MEM, major opcode 0001111: FENCE whatever its fm, pred, succ, rs1 and rd (R78, R81). -/
def decodeMiscMem (w : Word) : Except IllegalEncoding Instr :=
  match funct3Of w with
  | 0b000#3 => .ok (.fence (fmOf w) (predOf w) (succOf w) (rs1Of w) (rdOf w))
  | _ => .error .miscMemFunct3

/-- SYSTEM, major opcode 1110011: the two exact words of R79. -/
def decodeSystem (w : Word) : Except IllegalEncoding Instr :=
  if w = 0x00000073#32 then .ok .ecall
  else if w = 0x00100073#32 then .ok .ebreak
  else .error .systemWord

/-- JALR, major opcode 1100111 (R81). -/
def decodeJalr (w : Word) : Except IllegalEncoding Instr :=
  match funct3Of w with
  | 0b000#3 => .ok (.jalr (rdOf w) (rs1Of w) (immIOf w))
  | _ => .error .jalrFunct3

/-- The class of an unused major opcode (R83). -/
def unusedOpcode (w : Word) : IllegalEncoding :=
  if w.extractLsb' 0 2 = 0b11#2 then .unusedMajorOpcode else .notThirtyTwoBit

/-- `Decode(w)` (R81): one of the 40 instructions with its fields, or the reason it is illegal (R83). -/
def decode (w : Word) : Except IllegalEncoding Instr :=
  match opcodeOf w with
  | 0b0110111#7 => .ok (.lui (rdOf w) (immUOf w))
  | 0b0010111#7 => .ok (.auipc (rdOf w) (immUOf w))
  | 0b1101111#7 => .ok (.jal (rdOf w) (immJOf w))
  | 0b1100111#7 => decodeJalr w
  | 0b1100011#7 => decodeBranch w
  | 0b0000011#7 => decodeLoad w
  | 0b0100011#7 => decodeStore w
  | 0b0010011#7 => decodeOpImm w
  | 0b0110011#7 => decodeOp w
  | 0b0001111#7 => decodeMiscMem w
  | 0b1110011#7 => decodeSystem w
  | _ => .error (unusedOpcode w)

/-! ## Bytes: instructions are four bytes, little-endian (R42, R70) -/

/-- The four bytes of a word, the least significant first (R42). -/
def wordBytes (w : Word) : List Byte :=
  [w.extractLsb' 0 8, w.extractLsb' 8 8, w.extractLsb' 16 8, w.extractLsb' 24 8]

/-- The instruction at the head of a list of bytes, and the bytes after it. -/
def decodeBytes : List Byte → Except IllegalEncoding (Instr × List Byte)
  | b0 :: b1 :: b2 :: b3 :: rest =>
    match decode (b3 ++ b2 ++ b1 ++ b0) with
    | .ok i => .ok (i, rest)
    | .error e => .error e
  | _ => .error .truncated

/-- An opcode-table row's word as the spec's table numbers its bits: one 32-bit word, every bit above `nbits` 0. -/
def tableWord (nbits w : Nat) : Word := BitVec.ofNat 32 (w % 2 ^ nbits)

/-- What the decoder reads from an instruction whose bits are `w`, laid out in memory order. -/
def decodeTableWord (nbits w : Nat) : Option Instr :=
  match decodeBytes (wordBytes (tableWord nbits w)) with
  | .ok (i, _) => some i
  | .error _ => none

/-! ## The opcode map as data (R82) -/

/-- The 40 mnemonics of R82. -/
inductive Mnemonic where
  | lui | auipc | jal | jalr
  | beq | bne | blt | bge | bltu | bgeu
  | lb | lh | lw | lbu | lhu | sb | sh | sw
  | addi | slti | sltiu | xori | ori | andi | slli | srli | srai
  | add | sub | sll | slt | sltu | xor | srl | sra | or | and
  | fence | ecall | ebreak
  deriving DecidableEq, Repr

/-- The mnemonic of an instruction. -/
def Instr.mnemonic : Instr → Mnemonic
  | .lui _ _ => .lui
  | .auipc _ _ => .auipc
  | .jal _ _ => .jal
  | .jalr _ _ _ => .jalr
  | .beq _ _ _ => .beq
  | .bne _ _ _ => .bne
  | .blt _ _ _ => .blt
  | .bge _ _ _ => .bge
  | .bltu _ _ _ => .bltu
  | .bgeu _ _ _ => .bgeu
  | .lb _ _ _ => .lb
  | .lh _ _ _ => .lh
  | .lw _ _ _ => .lw
  | .lbu _ _ _ => .lbu
  | .lhu _ _ _ => .lhu
  | .sb _ _ _ => .sb
  | .sh _ _ _ => .sh
  | .sw _ _ _ => .sw
  | .addi _ _ _ => .addi
  | .slti _ _ _ => .slti
  | .sltiu _ _ _ => .sltiu
  | .xori _ _ _ => .xori
  | .ori _ _ _ => .ori
  | .andi _ _ _ => .andi
  | .slli _ _ _ => .slli
  | .srli _ _ _ => .srli
  | .srai _ _ _ => .srai
  | .add _ _ _ => .add
  | .sub _ _ _ => .sub
  | .sll _ _ _ => .sll
  | .slt _ _ _ => .slt
  | .sltu _ _ _ => .sltu
  | .xor _ _ _ => .xor
  | .srl _ _ _ => .srl
  | .sra _ _ _ => .sra
  | .or _ _ _ => .or
  | .and _ _ _ => .and
  | .fence _ _ _ _ _ => .fence
  | .ecall => .ecall
  | .ebreak => .ebreak

/-- A row of R82: "a word w is the instruction exactly when w AND mask = match". -/
structure OpcodeRow where
  mnemonic : Mnemonic
  mask : Word
  pattern : Word
  deriving DecidableEq, Repr

/-- Rows of R82 selected by the major opcode alone. -/
def rowsUpper : List OpcodeRow :=
  [⟨.lui, 0x0000007F#32, 0x00000037#32⟩, ⟨.auipc, 0x0000007F#32, 0x00000017#32⟩, ⟨.jal, 0x0000007F#32, 0x0000006F#32⟩]

/-- JALR and the branches. -/
def rowsTransfer : List OpcodeRow :=
  [⟨.jalr, 0x0000707F#32, 0x00000067#32⟩, ⟨.beq, 0x0000707F#32, 0x00000063#32⟩, ⟨.bne, 0x0000707F#32, 0x00001063#32⟩,
   ⟨.blt, 0x0000707F#32, 0x00004063#32⟩, ⟨.bge, 0x0000707F#32, 0x00005063#32⟩, ⟨.bltu, 0x0000707F#32, 0x00006063#32⟩,
   ⟨.bgeu, 0x0000707F#32, 0x00007063#32⟩]

/-- Loads and stores. -/
def rowsMemory : List OpcodeRow :=
  [⟨.lb, 0x0000707F#32, 0x00000003#32⟩, ⟨.lh, 0x0000707F#32, 0x00001003#32⟩, ⟨.lw, 0x0000707F#32, 0x00002003#32⟩,
   ⟨.lbu, 0x0000707F#32, 0x00004003#32⟩, ⟨.lhu, 0x0000707F#32, 0x00005003#32⟩, ⟨.sb, 0x0000707F#32, 0x00000023#32⟩,
   ⟨.sh, 0x0000707F#32, 0x00001023#32⟩, ⟨.sw, 0x0000707F#32, 0x00002023#32⟩]

/-- OP-IMM. -/
def rowsOpImm : List OpcodeRow :=
  [⟨.addi, 0x0000707F#32, 0x00000013#32⟩, ⟨.slti, 0x0000707F#32, 0x00002013#32⟩, ⟨.sltiu, 0x0000707F#32, 0x00003013#32⟩,
   ⟨.xori, 0x0000707F#32, 0x00004013#32⟩, ⟨.ori, 0x0000707F#32, 0x00006013#32⟩, ⟨.andi, 0x0000707F#32, 0x00007013#32⟩,
   ⟨.slli, 0xFE00707F#32, 0x00001013#32⟩, ⟨.srli, 0xFE00707F#32, 0x00005013#32⟩, ⟨.srai, 0xFE00707F#32, 0x40005013#32⟩]

/-- OP. -/
def rowsOp : List OpcodeRow :=
  [⟨.add, 0xFE00707F#32, 0x00000033#32⟩, ⟨.sub, 0xFE00707F#32, 0x40000033#32⟩, ⟨.sll, 0xFE00707F#32, 0x00001033#32⟩,
   ⟨.slt, 0xFE00707F#32, 0x00002033#32⟩, ⟨.sltu, 0xFE00707F#32, 0x00003033#32⟩, ⟨.xor, 0xFE00707F#32, 0x00004033#32⟩,
   ⟨.srl, 0xFE00707F#32, 0x00005033#32⟩, ⟨.sra, 0xFE00707F#32, 0x40005033#32⟩, ⟨.or, 0xFE00707F#32, 0x00006033#32⟩,
   ⟨.and, 0xFE00707F#32, 0x00007033#32⟩]

/-- MISC-MEM and SYSTEM. -/
def rowsSystem : List OpcodeRow :=
  [⟨.fence, 0x0000707F#32, 0x0000000F#32⟩, ⟨.ecall, 0xFFFFFFFF#32, 0x00000073#32⟩, ⟨.ebreak, 0xFFFFFFFF#32, 0x00100073#32⟩]

/-- The 40 rows of R82. -/
def opcodeRows : List OpcodeRow :=
  rowsUpper ++ rowsTransfer ++ rowsMemory ++ rowsOpImm ++ rowsOp ++ rowsSystem

/-- The word is the row's instruction. -/
abbrev OpcodeRow.Matches (r : OpcodeRow) (w : Word) : Prop := w &&& r.mask = r.pattern

/-! ## The encoder (R87) -/

/-- EncR. -/
def encR (f7 : BitVec 7) (rs2 rs1 : Reg) (f3 : BitVec 3) (rd : Reg) (opc : BitVec 7) : Word :=
  f7 ++ rs2 ++ rs1 ++ f3 ++ rd ++ opc

/-- EncI. -/
def encI (imm : BitVec 12) (rs1 : Reg) (f3 : BitVec 3) (rd : Reg) (opc : BitVec 7) : Word :=
  imm ++ rs1 ++ f3 ++ rd ++ opc

/-- EncS: imm[11:5] ++ rs2 ++ rs1 ++ f3 ++ imm[4:0] ++ opc. -/
def encS (imm : BitVec 12) (rs2 rs1 : Reg) (f3 : BitVec 3) (opc : BitVec 7) : Word :=
  imm.extractLsb' 5 7 ++ rs2 ++ rs1 ++ f3 ++ imm.extractLsb' 0 5 ++ opc

/-- EncB: imm[12] ++ imm[10:5] ++ rs2 ++ rs1 ++ f3 ++ imm[4:1] ++ imm[11] ++ opc. -/
def encB (imm : BitVec 13) (rs2 rs1 : Reg) (f3 : BitVec 3) (opc : BitVec 7) : Word :=
  imm.extractLsb' 12 1 ++ imm.extractLsb' 5 6 ++ rs2 ++ rs1 ++ f3 ++ imm.extractLsb' 1 4 ++ imm.extractLsb' 11 1 ++ opc

/-- EncU: imm20 ++ rd ++ opc. -/
def encU (imm : BitVec 20) (rd : Reg) (opc : BitVec 7) : Word :=
  imm ++ rd ++ opc

/-- EncJ: imm[20] ++ imm[10:1] ++ imm[11] ++ imm[19:12] ++ rd ++ opc. -/
def encJ (imm : BitVec 21) (rd : Reg) (opc : BitVec 7) : Word :=
  imm.extractLsb' 20 1 ++ imm.extractLsb' 1 10 ++ imm.extractLsb' 11 1 ++ imm.extractLsb' 12 8 ++ rd ++ opc

/-- `Encode` (R87). A FENCE's rs1 and rd are written as its term holds them; the assembler's `fence` holds 0 in both
(R99), which is the word R87 gives (log 14). -/
def encode : Instr → Word
  | .lui rd imm => encU imm rd 0b0110111#7
  | .auipc rd imm => encU imm rd 0b0010111#7
  | .jal rd off => encJ off rd 0b1101111#7
  | .jalr rd rs1 imm => encI imm rs1 0b000#3 rd 0b1100111#7
  | .beq rs1 rs2 off => encB off rs2 rs1 0b000#3 0b1100011#7
  | .bne rs1 rs2 off => encB off rs2 rs1 0b001#3 0b1100011#7
  | .blt rs1 rs2 off => encB off rs2 rs1 0b100#3 0b1100011#7
  | .bge rs1 rs2 off => encB off rs2 rs1 0b101#3 0b1100011#7
  | .bltu rs1 rs2 off => encB off rs2 rs1 0b110#3 0b1100011#7
  | .bgeu rs1 rs2 off => encB off rs2 rs1 0b111#3 0b1100011#7
  | .lb rd rs1 imm => encI imm rs1 0b000#3 rd 0b0000011#7
  | .lh rd rs1 imm => encI imm rs1 0b001#3 rd 0b0000011#7
  | .lw rd rs1 imm => encI imm rs1 0b010#3 rd 0b0000011#7
  | .lbu rd rs1 imm => encI imm rs1 0b100#3 rd 0b0000011#7
  | .lhu rd rs1 imm => encI imm rs1 0b101#3 rd 0b0000011#7
  | .sb rs2 rs1 imm => encS imm rs2 rs1 0b000#3 0b0100011#7
  | .sh rs2 rs1 imm => encS imm rs2 rs1 0b001#3 0b0100011#7
  | .sw rs2 rs1 imm => encS imm rs2 rs1 0b010#3 0b0100011#7
  | .addi rd rs1 imm => encI imm rs1 0b000#3 rd 0b0010011#7
  | .slti rd rs1 imm => encI imm rs1 0b010#3 rd 0b0010011#7
  | .sltiu rd rs1 imm => encI imm rs1 0b011#3 rd 0b0010011#7
  | .xori rd rs1 imm => encI imm rs1 0b100#3 rd 0b0010011#7
  | .ori rd rs1 imm => encI imm rs1 0b110#3 rd 0b0010011#7
  | .andi rd rs1 imm => encI imm rs1 0b111#3 rd 0b0010011#7
  | .slli rd rs1 shamt => encI (0b0000000#7 ++ shamt) rs1 0b001#3 rd 0b0010011#7
  | .srli rd rs1 shamt => encI (0b0000000#7 ++ shamt) rs1 0b101#3 rd 0b0010011#7
  | .srai rd rs1 shamt => encI (0b0100000#7 ++ shamt) rs1 0b101#3 rd 0b0010011#7
  | .add rd rs1 rs2 => encR 0b0000000#7 rs2 rs1 0b000#3 rd 0b0110011#7
  | .sub rd rs1 rs2 => encR 0b0100000#7 rs2 rs1 0b000#3 rd 0b0110011#7
  | .sll rd rs1 rs2 => encR 0b0000000#7 rs2 rs1 0b001#3 rd 0b0110011#7
  | .slt rd rs1 rs2 => encR 0b0000000#7 rs2 rs1 0b010#3 rd 0b0110011#7
  | .sltu rd rs1 rs2 => encR 0b0000000#7 rs2 rs1 0b011#3 rd 0b0110011#7
  | .xor rd rs1 rs2 => encR 0b0000000#7 rs2 rs1 0b100#3 rd 0b0110011#7
  | .srl rd rs1 rs2 => encR 0b0000000#7 rs2 rs1 0b101#3 rd 0b0110011#7
  | .sra rd rs1 rs2 => encR 0b0100000#7 rs2 rs1 0b101#3 rd 0b0110011#7
  | .or rd rs1 rs2 => encR 0b0000000#7 rs2 rs1 0b110#3 rd 0b0110011#7
  | .and rd rs1 rs2 => encR 0b0000000#7 rs2 rs1 0b111#3 rd 0b0110011#7
  | .fence fm pred succ rs1 rd => encI (fm ++ pred ++ succ) rs1 0b000#3 rd 0b0001111#7
  | .ecall => 0x00000073#32
  | .ebreak => 0x00100073#32

end Sys2Proof
end

