-- ==== Sys2Proof/Machine/State.lean ====
section
/-! DEFINITION. The state of the machine as plain data (10_state.md), the kinds of status, trap and halt, the host's
calls and what they give back, the reasons a step can stop, and the state right after reset (R31, R240). -/

namespace Sys2Proof.Machine

/-! ## Status (R19 to R21) -/

/-- Why a run ended voluntarily or at the step bound (R20). -/
inductive HaltReason where
  /-- An ECALL was executed (R195). -/
  | exit
  /-- An EBREAK was executed (R196). -/
  | breakpoint
  /-- The step bound was reached (R210). -/
  | stepLimitExceeded
  deriving DecidableEq, Repr

/-- The kind of access a `Misaligned` trap records (R202). -/
inductive AlignKind where
  | load | store | jump
  deriving DecidableEq, Repr

/-- The kind of access an `OutOfBounds` trap records (R203). -/
inductive BoundsKind where
  | fetch | load | store
  deriving DecidableEq, Repr

/-- The three trap causes with the information they carry (R21, R201 to R204). There are no numeric codes. -/
inductive TrapCause where
  /-- The fetched word has no decoding (R201). -/
  | illegalInstruction (w : Word)
  /-- A data address or a jump target is misaligned (R202). -/
  | misaligned (kind : AlignKind) (addr : Word)
  /-- A fetch, load or store is outside its bound (R203). -/
  | outOfBounds (kind : BoundsKind) (addr : Word)
  deriving DecidableEq, Repr

/-- The execution status: one of five forms (R19). -/
inductive Status where
  | uninitialized
  | assembled
  | running
  | halted (r : HaltReason)
  | trapped (c : TrapCause)
  deriving DecidableEq, Repr

/-! ## The host's side: assembly errors, log entries, calls and replies -/

/-- The reason a `SyntaxError` names (R91). `malformedLine` is the model's own name for a line that is no label
definition followed by an instruction (log 17). -/
inductive SyntaxReason where
  | unknownToken
  | malformedOperandList
  | malformedLine
  deriving DecidableEq, Repr

/-- The seven assembly-time errors with their source location (R95): a line, counted from 1, and for a `SyntaxError`
a column, counted from 1, and a reason (log 17). -/
inductive AsmError where
  | syntaxError (line col : Nat) (reason : SyntaxReason)
  | duplicateLabel (line : Nat)
  | undefinedSymbol (line : Nat)
  | unknownMnemonic (line : Nat)
  | immediateRange (line : Nat)
  | invalidRegister (line : Nat)
  | offsetRange (line : Nat)
  deriving DecidableEq, Repr

/-- An entry of the diagnostic log: a trap's or a step-limit halt's cause and pc (R208), or an assembly failure with
its location (R243, R95). Severity and message text are open and not modelled (D24, log 15). -/
inductive LogEntry where
  | trap (cause : TrapCause) (pc : Word)
  | stepLimit (pc : Word)
  | assembly (e : AsmError)
  deriving DecidableEq, Repr

/-- The six calls of the host (70_reset_and_hazards.md, the table at its head). -/
inductive HostCall where
  | construct
  | assemble (text : List Char)
  | getText
  | run
  | getState
  | getLogs
  deriving DecidableEq, Repr

/-- One line of the listing: address, word, and the mnemonic and operands the word disassembles to (R102). -/
structure ListingLine where
  address : Nat
  word : Word
  instr : Option Instr
  form : List Char
  deriving DecidableEq, Repr

/-- What a host call gives back besides its effect: a failure (R243, R244), a listing (R249), the tuple
(status, pc, x[0] .. x[31]) (R248), or the drained log (R250). A call that succeeds and returns nothing adds none
(log 22). -/
inductive Reply where
  | invalidState
  | assemblyFailed (e : AsmError)
  | listing (lines : List ListingLine)
  | dump (status : Status) (pc : Word) (regs : List Word)
  | logs (entries : List LogEntry)
  deriving DecidableEq, Repr

/-! ## Memory, as data -/

/-- `mem` (R25): the bytes that are not 0, by address, in one canonical form (`Memory.Wf` in Ops.lean). An unlisted
address reads as 0, the value memory holds when a State is created (log 7). -/
abbrev Memory := List Host.Cell

/-! ## The state -/

/-- Everything the spec gives the machine, the two parameters, and the host agent's script (log 3, log 10). -/
structure State where
  /-- `x[1]` .. `x[31]`; index `i - 1` holds `x[i]`, and `x[0]` has no storage (R11, R12, log 8). -/
  xregs : Vector Word 31
  /-- The program counter (R15). -/
  pc : Word
  /-- The execution status (R19). -/
  status : Status
  /-- Instructions retired in the current run (R23). -/
  steps : Nat
  /-- IMAGE: the words of the last successful assembly (R8, R24). -/
  image : List Word
  /-- The memory (R25). -/
  mem : Memory
  /-- The diagnostic log, oldest entry first (R26). -/
  log : List LogEntry
  /-- MEM_SIZE and MAX_STEPS (R5, R6), which no step changes (R30). -/
  config : Config
  /-- The model's own: the host calls still to be made, next one first (log 10). -/
  calls : List HostCall
  /-- The model's own: what the host has been given back, oldest first (log 10). -/
  replies : List Reply
  deriving DecidableEq, Repr

/-- Why a step has no next state: raised by `step` itself, never by an instruction. The spec's own traps are not
faults of the model: taking one is a next state (R206, log 9). -/
inductive Fault where
  /-- No agent has a step to take: status is not Running, so the hart takes none (R22), and the host has no call to
  make. Safe: the machine waits (log 9). -/
  | noStep
  deriving DecidableEq, Repr

/-- Why a step is given no meaning. -/
inductive Refusal where
  /-- An instruction with no meaning in the model; raised by exec's arms, of which none is left. Safe. -/
  | notModelled (mnemonic : String)
  /-- The host call assemble succeeded with an image larger than memory, to which the spec gives no meaning (R253,
  D23). Raised by the host call assemble. Safe (log 12). -/
  | imageTooLarge
  /-- The host call assemble met a directive on this line, to which the spec gives no meaning (R101, D22). Raised by
  the host call assemble. Safe (log 13). -/
  | directive (line : Nat)
  deriving DecidableEq, Repr

/-- The outcome of a step, of an instruction or of a host call. -/
abbrev Result := Host.Outcome State Fault Refusal

/-- The machine right after reset, `construct State` (R240, R31): status Uninitialized, memory all zero, IMAGE empty
(stated); registers, pc and steps 0 (the spec's decisions D11, D14; log 5); the log empty (log 6); the parameters of
`Config.initial` (log 4); the host with nothing to do (log 10). -/
def State.reset : State where
  xregs := Vector.replicate 31 0#32
  pc := 0#32
  status := .uninitialized
  steps := 0
  image := []
  mem := []
  log := []
  config := Config.initial
  calls := []
  replies := []

end Sys2Proof.Machine
end

