-- ==== Sys2Proof/Machine/Ops.lean ====
section
/-! DEFINITION. The named operations over registers and memory, instruction fetch, retiring, taking a trap and
halting. -/

namespace Sys2Proof.Machine

/-! ## Registers (R11 to R14) -/

/-- Read of register `r`: `x[0]` is 0, `x[i]` is entry `i - 1` of the file (R12). -/
def State.x (s : State) (r : Reg) : Word :=
  if r = 0#5 then 0#32 else s.xregs[r.toNat - 1]'(by have := r.isLt; omega)

/-- Write of register `r`: discarded when `r` is 0 (R12). -/
def State.setX (s : State) (r : Reg) (v : Word) : State :=
  if r = 0#5 then s else { s with xregs := s.xregs.set (r.toNat - 1) v (by have := r.isLt; omega) }

/-- The 32 registers in index order (R32). -/
def State.regList (s : State) : List Word :=
  (List.range 32).map fun i => s.x (BitVec.ofNat 5 i)

/-! ## Bytes of memory (R25, R40) -/

/-- The byte at an address: its cell, or 0 where none is listed (R31). -/
def Memory.byte : Memory → Nat → Byte
  | [], _ => 0#8
  | (k, b) :: m, a => if k = a then b else Memory.byte m a

/-- Memory without a cell at `a`. -/
def Memory.erase (m : Memory) (a : Nat) : Memory := m.filter fun c => decide (c.1 ≠ a)

/-- Memory with a cell at `a`, before the first cell of a higher address. -/
def Memory.insert : Memory → Nat → Byte → Memory
  | [], a, b => [(a, b)]
  | c :: m, a, b => if a < c.1 then (a, b) :: c :: m else c :: Memory.insert m a b

/-- Memory with the byte at `a` replaced; keeps the canonical form, so writing 0 removes the cell. -/
def Memory.set (m : Memory) (a : Nat) (b : Byte) : Memory :=
  if b = 0#8 then Memory.erase m a else Memory.insert (Memory.erase m a) a b

/-- The canonical form: addresses strictly rising, and no listed byte equal to what an unlisted address reads as. -/
abbrev Memory.Wf (m : Memory) : Prop :=
  m.Pairwise (fun c d => c.1 < d.1) ∧ ∀ c ∈ m, c.2 ≠ 0#8

/-- Every listed address is below `n`. -/
abbrev Memory.Below (m : Memory) (n : Nat) : Prop := ∀ c ∈ m, c.1 < n

/-- `n` bytes at `a` as one pattern, little-endian: mem[a+n-1] ++ ... ++ mem[a] (R42, R43). -/
def Memory.readLE (m : Memory) (a : Nat) : (n : Nat) → BitVec (8 * n)
  | 0 => 0#0
  | n + 1 => Memory.readLE m (a + 1) n ++ Memory.byte m a

/-- `n` bytes at `a` replaced by those of `v`, little-endian: mem[a+i] <- v[8i+7 : 8i] (R42, R44). -/
def Memory.writeLE (m : Memory) (a : Nat) : (n : Nat) → BitVec (8 * n) → Memory
  | 0, _ => m
  | n + 1, v => Memory.writeLE (Memory.set m a (v.extractLsb' 0 8)) (a + 1) n (v.extractLsb' 8 (8 * n))

/-- Memory that holds the given bytes from address `a` on and zeros elsewhere. -/
def Memory.ofBytes : Nat → List Byte → Memory
  | _, [] => []
  | a, b :: bs => if b = 0#8 then Memory.ofBytes (a + 1) bs else (a, b) :: Memory.ofBytes (a + 1) bs

/-! ## The access primitives (20_memory.md section 4) -/

/-- `MemRead(addr, n)`: alignment first, then bounds, then the bytes (R43, R45 to R47). -/
def memRead (s : State) (addr : Word) (n : Nat) : Except TrapCause (BitVec (8 * n)) :=
  if addr.toNat % n ≠ 0 then .error (.misaligned .load addr)
  else if addr.toNat + n > s.config.memSize then .error (.outOfBounds .load addr)
  else .ok (Memory.readLE s.mem addr.toNat n)

/-- `MemWrite(addr, n, v)`: alignment first, then bounds, then the new memory (R44 to R47). -/
def memWrite (s : State) (addr : Word) (n : Nat) (v : BitVec (8 * n)) : Except TrapCause Memory :=
  if addr.toNat % n ≠ 0 then .error (.misaligned .store addr)
  else if addr.toNat + n > s.config.memSize then .error (.outOfBounds .store addr)
  else .ok (Memory.writeLE s.mem addr.toNat n v)

/-- `image_end` = 4 * length(IMAGE) (R8, R24). -/
def State.imageEnd (s : State) : Nat := 4 * s.image.length

/-- `Fetch(addr)`: bounded by image_end, not by MEM_SIZE; reads `mem`, not IMAGE (R48, R56). -/
def fetch (s : State) (addr : Word) : Except TrapCause Word :=
  if addr.toNat ≥ s.imageEnd ∨ addr.toNat % 4 ≠ 0 then .error (.outOfBounds .fetch addr)
  else .ok (Memory.readLE s.mem addr.toNat 4)

/-- The state with another memory. -/
def State.setMem (s : State) (m : Memory) : State := { s with mem := m }

/-! ## The three outcomes of a step (R246) -/

/-- Retire: pc <- target, steps <- steps + 1 (R16, R246). -/
def State.retireTo (s : State) (target : Word) : State :=
  { s with pc := target, steps := s.steps + 1 }

/-- Retire with no target assigned: pc <- pc + 4 modulo 2^32 (R16, R17). -/
def State.retire (s : State) : State := s.retireTo (s.pc + 4#32)

/-- Trap entry (R206): status and one log entry (cause, pc) change, nothing else; nothing is saved, no control goes to
any handler. There is no return from a trap (R211): a trapped machine is left only by a successful assemble. -/
def State.takeTrap (s : State) (c : TrapCause) : State :=
  { s with status := .trapped c, log := s.log ++ [.trap c s.pc] }

/-- A voluntary halt (R209): only status changes. -/
def State.haltWith (s : State) (r : HaltReason) : State :=
  { s with status := .halted r }

/-- The halt at the step bound (R210, R208): status, and one log entry. -/
def State.haltAtLimit (s : State) : State :=
  { s with status := .halted .stepLimitExceeded, log := s.log ++ [.stepLimit s.pc] }

/-! ## How an instruction ends -/

/-- x[rd] <- v, then retire to pc + 4: every register-writing instruction without a jump (R110, R130, R170 d). -/
def writeBack (rd : Reg) (v : Word) (s : State) : Result :=
  .next (s.setX rd v).retire

/-- A load of `n` bytes at `addr`: the trap of `MemRead`, or x[rd] <- extend(bytes) (R170 c, d, e). -/
def loadInto (rd : Reg) (addr : Word) (n : Nat) (extend : BitVec (8 * n) → Word) (s : State) : Result :=
  match memRead s addr n with
  | .error c => .next (s.takeTrap c)
  | .ok v => writeBack rd (extend v) s

/-- A store of `n` bytes at `addr`: the trap of `MemWrite`, or the bytes written (R170 c, d). -/
def storeAt (addr : Word) (n : Nat) (v : BitVec (8 * n)) (s : State) : Result :=
  match memWrite s addr n v with
  | .error c => .next (s.takeTrap c)
  | .ok m => .next (s.setMem m).retire

/-- A jump with link: the target's alignment is checked before the link is written (R150 a, c; R151, R152). -/
def jumpAndLink (rd : Reg) (target : Word) (s : State) : Result :=
  if target.toNat % 4 ≠ 0 then .next (s.takeTrap (.misaligned .jump target))
  else .next ((s.setX rd (s.pc + 4#32)).retireTo target)

/-- A conditional branch: the target is checked only when the branch is taken (R150 b). -/
def branchIf (taken : Bool) (target : Word) (s : State) : Result :=
  if taken then
    if target.toNat % 4 ≠ 0 then .next (s.takeTrap (.misaligned .jump target)) else .next (s.retireTo target)
  else .next s.retire

end Sys2Proof.Machine
end

