-- ==== Sys2Proof/Machine/Assembler.lean ====
section
/-! DEFINITION. The assembler as 30_encoding.md part B gives it (R90 to R102): lexing, lines, the two passes, the seven
errors, the operand ranges; and the disassembly the listing shows (R99, R102). Where part B leaves a point open the
model's choice is in log 17, log 18 and log 19. -/

namespace Sys2Proof.Machine

/-- How assembling can end without an image: one of the seven errors (R95), or a line with a directive, to which the
spec gives no meaning (R101). -/
inductive AsmStop where
  | failed (e : AsmError)
  | directive (line : Nat)
  deriving DecidableEq, Repr

/-! ## Characters -/

/-- 0 .. 9. -/
def isDigit (c : Char) : Bool := decide (48 ≤ c.toNat) && decide (c.toNat ≤ 57)
/-- a .. z. -/
def isLower (c : Char) : Bool := decide (97 ≤ c.toNat) && decide (c.toNat ≤ 122)
/-- A .. Z. -/
def isUpper (c : Char) : Bool := decide (65 ≤ c.toNat) && decide (c.toNat ≤ 90)
/-- A .. Z, a .. z and the underscore. -/
def isNameStart (c : Char) : Bool := isLower c || isUpper c || decide (c = '_')
/-- The characters of a word: letters, digits, `_`, `$`, `.` and `-` (log 17). -/
def isWordChar (c : Char) : Bool :=
  isNameStart c || isDigit c || decide (c = '$') || decide (c = '.') || decide (c = '-')
/-- Whitespace inside a line (R91, log 17). -/
def isBlank (c : Char) : Bool := decide (c = ' ') || decide (c = '\t') || decide (c = '\r')

/-- Lower case: mnemonics and register names are case-insensitive (R91). -/
def lowerChar (c : Char) : Char := if isUpper c then Char.ofNat (c.toNat + 32) else c

/-- The value of a digit in base 16 or below. -/
def digitValue (c : Char) : Option Nat :=
  if isDigit c then some (c.toNat - 48)
  else if decide (97 ≤ c.toNat) && decide (c.toNat ≤ 102) then some (c.toNat - 87)
  else if decide (65 ≤ c.toNat) && decide (c.toNat ≤ 70) then some (c.toNat - 55)
  else none

/-- The number a digit string denotes after the digits already read. -/
def digitsValue (base : Nat) : List Char → Nat → Option Nat
  | [], acc => some acc
  | c :: cs, acc =>
    match digitValue c with
    | some d => if d < base then digitsValue base cs (acc * base + d) else none
    | none => none

/-- Decimal literals with an optional leading `-`, and hexadecimal literals `0x...` (R97). -/
def numberValue (cs : List Char) : Option Int :=
  match cs with
  | [] => none
  | '-' :: [] => none
  | '-' :: ds => (digitsValue 10 ds 0).map fun n => -(n : Int)
  | '0' :: 'x' :: d :: ds => (digitsValue 16 (d :: ds) 0).map fun n => (n : Int)
  | ds => (digitsValue 10 ds 0).map fun n => (n : Int)

/-! ## Lines and tokens (R90 to R92) -/

/-- The two characters backslash and `n` are a line separator (R90). -/
def unescape : List Char → List Char
  | [] => []
  | [c] => [c]
  | c :: d :: cs => if c = '\\' ∧ d = 'n' then '\n' :: unescape cs else c :: unescape (d :: cs)

/-- The lines of a text (R91). -/
def splitLines : List Char → List (List Char)
  | [] => [[]]
  | c :: cs =>
    if c = '\n' then [] :: splitLines cs
    else
      match splitLines cs with
      | [] => [[c]]
      | l :: ls => (c :: l) :: ls

/-- The tokens of a line (R91, log 17). -/
inductive Token where
  | name (cs : List Char)
  | number (v : Int)
  | comma
  | lparen
  | rparen
  | colon
  deriving DecidableEq, Repr

/-- A name: a letter, `_` or `$` first, then letters, digits, `_`, `$` and `.` (log 17). -/
def isName : List Char → Bool
  | [] => false
  | c :: cs =>
    (isNameStart c || decide (c = '$')) &&
      cs.all fun d => isNameStart d || isDigit d || decide (d = '$') || decide (d = '.')

/-- A label's name: `[A-Za-z_][A-Za-z0-9_]*` (R92). -/
def isLabelName : List Char → Bool
  | [] => false
  | c :: cs => isNameStart c && cs.all fun d => isNameStart d || isDigit d

/-- Where an instruction or a directive stands (R92): nothing is before it on the line, or only a label definition. The
tokens are those read so far, the last one first. -/
def atStatement : List (Nat × Token) → Bool
  | [] => true
  | [(_, .colon), (_, .name _)] => true
  | _ => false

/-- The token a word is. A word that starts with a dot where an instruction or a directive stands is a directive, to
which the spec gives no meaning (R101, log 13); any other word that is neither a number nor a name is an unknown token
(R91). -/
def wordToken (line col : Nat) (statement : Bool) (cs : List Char) : Except AsmStop Token :=
  if statement && decide (cs.head? = some '.') then .error (.directive line)
  else
    match numberValue cs with
    | some v => .ok (.number v)
    | none => if isName cs then .ok (.name cs) else .error (.failed (.syntaxError line col .unknownToken))

/-- The token of a single character. -/
def punctuation (c : Char) : Option Token :=
  if c = ',' then some .comma
  else if c = '(' then some .lparen
  else if c = ')' then some .rparen
  else if c = ':' then some .colon
  else none

/-- Add the word read so far (`acc`, last character first, ending before column `col`) to the tokens before it (`toks`,
last token first). -/
def flushWord (line col : Nat) (acc : List Char) (toks : List (Nat × Token)) : Except AsmStop (List (Nat × Token)) :=
  if acc.isEmpty then .ok toks
  else
    match wordToken line (col - acc.length) (atStatement toks) acc.reverse with
    | .ok t => .ok ((col - acc.length, t) :: toks)
    | .error e => .error e

/-- The tokens of a line with their columns, the last one first; whitespace is discarded, and so is everything from the
comment marker `#` to the end of the line (R91). Words are checked from left to right, so the first offending one is the
one named (DESIGN CHOICE, log 18). -/
def lexFrom (line : Nat) : List Char → Nat → List Char → List (Nat × Token) → Except AsmStop (List (Nat × Token))
  | [], col, acc, toks => flushWord line col acc toks
  | c :: cs, col, acc, toks =>
    if isWordChar c then lexFrom line cs (col + 1) (c :: acc) toks
    else
      match flushWord line col acc toks with
      | .error e => .error e
      | .ok toks =>
        if c = '#' then .ok toks
        else if isBlank c then lexFrom line cs (col + 1) [] toks
        else
          match punctuation c with
          | some t => lexFrom line cs (col + 1) [] ((col, t) :: toks)
          | none => .error (.failed (.syntaxError line col .unknownToken))

/-- The tokens of a line with their columns, in the order of the line (R91). -/
def lexLine (line : Nat) (cs : List Char) : Except AsmStop (List (Nat × Token)) :=
  (lexFrom line cs 1 [] []).map List.reverse

/-! ## Statements (R92, R99) -/

/-- An operand: a name (register or label), a number, or `imm(rs1)` (R99). -/
inductive Operand where
  | name (cs : List Char)
  | number (v : Int)
  | indexed (v : Int) (base : List Char)
  deriving DecidableEq, Repr

/-- A parsed line: an optional label definition, then an optional instruction (R92). -/
structure Stmt where
  line : Nat
  /-- The mnemonic's column. -/
  col : Nat
  label : Option (List Char)
  instr : Option (List Char × List Operand)
  deriving DecidableEq, Repr

/-- The tokens between commas. -/
def splitCommas : List (Nat × Token) → List (List Token)
  | [] => [[]]
  | (_, t) :: ts =>
    if t = .comma then [] :: splitCommas ts
    else
      match splitCommas ts with
      | [] => [[t]]
      | g :: gs => (t :: g) :: gs

/-- The operand that the tokens between two commas are, if any (R99). -/
def operandOf (g : List Token) : Option Operand :=
  match g with
  | [.name n] => some (.name n)
  | [.number v] => some (.number v)
  | [.number v, .lparen, .name b, .rparen] => some (.indexed v b)
  | _ => none

/-- Operands separated by commas (R92). -/
def operandsOf : List (List Token) → Option (List Operand)
  | [] => some []
  | g :: gs =>
    match operandOf g, operandsOf gs with
    | some o, some os => some (o :: os)
    | _, _ => none

/-! ## Names of mnemonics (R82, R100) -/

/-- A mnemonic as it is written. -/
def mnemonicChars : Mnemonic → List Char
  | .lui => ['l', 'u', 'i']
  | .auipc => ['a', 'u', 'i', 'p', 'c']
  | .jal => ['j', 'a', 'l']
  | .jalr => ['j', 'a', 'l', 'r']
  | .beq => ['b', 'e', 'q']
  | .bne => ['b', 'n', 'e']
  | .blt => ['b', 'l', 't']
  | .bge => ['b', 'g', 'e']
  | .bltu => ['b', 'l', 't', 'u']
  | .bgeu => ['b', 'g', 'e', 'u']
  | .lb => ['l', 'b']
  | .lh => ['l', 'h']
  | .lw => ['l', 'w']
  | .lbu => ['l', 'b', 'u']
  | .lhu => ['l', 'h', 'u']
  | .sb => ['s', 'b']
  | .sh => ['s', 'h']
  | .sw => ['s', 'w']
  | .addi => ['a', 'd', 'd', 'i']
  | .slti => ['s', 'l', 't', 'i']
  | .sltiu => ['s', 'l', 't', 'i', 'u']
  | .xori => ['x', 'o', 'r', 'i']
  | .ori => ['o', 'r', 'i']
  | .andi => ['a', 'n', 'd', 'i']
  | .slli => ['s', 'l', 'l', 'i']
  | .srli => ['s', 'r', 'l', 'i']
  | .srai => ['s', 'r', 'a', 'i']
  | .add => ['a', 'd', 'd']
  | .sub => ['s', 'u', 'b']
  | .sll => ['s', 'l', 'l']
  | .slt => ['s', 'l', 't']
  | .sltu => ['s', 'l', 't', 'u']
  | .xor => ['x', 'o', 'r']
  | .srl => ['s', 'r', 'l']
  | .sra => ['s', 'r', 'a']
  | .or => ['o', 'r']
  | .and => ['a', 'n', 'd']
  | .fence => ['f', 'e', 'n', 'c', 'e']
  | .ecall => ['e', 'c', 'a', 'l', 'l']
  | .ebreak => ['e', 'b', 'r', 'e', 'a', 'k']

/-- The 40 mnemonics the assembler admits: exactly those of R82 (R100). -/
def allMnemonics : List Mnemonic := opcodeRows.map OpcodeRow.mnemonic

/-- The mnemonic a name is, whatever its case (R91). -/
def mnemonicOf (cs : List Char) : Option Mnemonic :=
  allMnemonics.find? fun m => decide (mnemonicChars m = cs.map lowerChar)

/-! ## Operand lists (R99) -/

/-- The rows of the table of R99. -/
inductive Shape where
  /-- `op rd, rs1, rs2`. -/
  | registers
  /-- `op rd, rs1, imm`, and the shifts `op rd, rs1, shamt`. -/
  | immediate
  /-- `op rd, imm20`. -/
  | upper
  /-- `op r, imm(rs1)`. -/
  | indexed
  /-- `op rs1, rs2, label`. -/
  | branch
  /-- `jal rd, label`. -/
  | jump
  /-- No operands. -/
  | bare
  deriving DecidableEq, Repr

/-- The row of R99 a mnemonic stands in. -/
def shapeOf : Mnemonic → Shape
  | .lui | .auipc => .upper
  | .jal => .jump
  | .beq | .bne | .blt | .bge | .bltu | .bgeu => .branch
  | .jalr | .lb | .lh | .lw | .lbu | .lhu | .sb | .sh | .sw => .indexed
  | .addi | .slti | .sltiu | .xori | .ori | .andi | .slli | .srli | .srai => .immediate
  | .add | .sub | .sll | .slt | .sltu | .xor | .srl | .sra | .or | .and => .registers
  | .fence | .ecall | .ebreak => .bare

/-- A branch or jump target is a label or a numeric byte displacement (R98). -/
def Operand.isTarget : Operand → Bool
  | .name _ => true
  | .number _ => true
  | .indexed _ _ => false

/-- The operands have the number and kinds the row of R99 asks for (log 19). -/
def Shape.fits : Shape → List Operand → Bool
  | .registers, [.name _, .name _, .name _] => true
  | .immediate, [.name _, .name _, .number _] => true
  | .upper, [.name _, .number _] => true
  | .indexed, [.name _, .indexed _ _] => true
  | .branch, [.name _, .name _, target] => target.isTarget
  | .jump, [.name _, target] => target.isTarget
  | .bare, [] => true
  | _, _ => false

/-- The operand list is well formed for the mnemonic as it is written. An unknown mnemonic asks for no shape: it fails
as `UnknownMnemonicError` in pass 2 (R100, log 19). -/
def operandsFit (m : List Char) (os : List Operand) : Bool :=
  match mnemonicOf m with
  | some mn => (shapeOf mn).fits os
  | none => true

/-- An instruction with its operand list; a list of another shape is a malformed operand list, a parsing failure
(R91). -/
def instrStmt (line col : Nat) (label : Option (List Char)) (m : List Char) (os : List Operand) : Except AsmStop Stmt :=
  if operandsFit m os then .ok ⟨line, col, label, some (m, os)⟩
  else .error (.failed (.syntaxError line col .malformedOperandList))

/-- A mnemonic followed by its operands, or nothing (R92); the operand list is checked here (R91). -/
def parseInstr (line : Nat) (label : Option (List Char)) : List (Nat × Token) → Except AsmStop Stmt
  | [] => .ok ⟨line, 1, label, none⟩
  | (col, .name m) :: [] => instrStmt line col label m []
  | (col, .name m) :: rest =>
    match operandsOf (splitCommas rest) with
    | some os => instrStmt line col label m os
    | none => .error (.failed (.syntaxError line col .malformedOperandList))
  | (col, _) :: _ => .error (.failed (.syntaxError line col .malformedLine))

/-- A line: `name:` first, when it has a label (R92). -/
def parseLine (line : Nat) : List (Nat × Token) → Except AsmStop Stmt
  | (col, .name l) :: (_, .colon) :: rest =>
    if isLabelName l then parseInstr line (some l) rest
    else .error (.failed (.syntaxError line col .malformedLine))
  | ts => parseInstr line none ts

/-- The statements of the lines, numbered from `line` on. -/
def parseLines : Nat → List (List Char) → Except AsmStop (List Stmt)
  | _, [] => .ok []
  | line, l :: ls =>
    match lexLine line l with
    | .error e => .error e
    | .ok ts =>
      match parseLine line ts with
      | .error e => .error e
      | .ok st =>
        match parseLines (line + 1) ls with
        | .error e => .error e
        | .ok sts => .ok (st :: sts)

/-! ## Names of registers (R96) -/

/-- A digit's character. -/
def digitChar (n : Nat) : Char := Char.ofNat (48 + n)

/-- The decimal digits of a number in front of `acc`; `fuel` bounds their count. -/
def decimalDigits : Nat → Nat → List Char → List Char
  | 0, _, acc => acc
  | fuel + 1, n, acc =>
    if n / 10 = 0 then digitChar (n % 10) :: acc else decimalDigits fuel (n / 10) (digitChar (n % 10) :: acc)

/-- A natural number in decimal; every number printed here is below 10^20. -/
def natChars (n : Nat) : List Char := decimalDigits 20 n []

/-- An integer in decimal. -/
def intChars : Int → List Char
  | .ofNat n => natChars n
  | .negSucc n => '-' :: natChars (n + 1)

/-- `x0` .. `x31`. -/
def xName (i : Nat) : List Char := 'x' :: natChars i

/-- The ABI names (R13, R96), `s0` and `fp` both x8. -/
def abiNames : List (List Char × Nat) :=
  [(['z', 'e', 'r', 'o'], 0),
   (['r', 'a'], 1),
   (['s', 'p'], 2),
   (['g', 'p'], 3),
   (['t', 'p'], 4),
   (['t', '0'], 5),
   (['t', '1'], 6),
   (['t', '2'], 7),
   (['s', '0'], 8),
   (['f', 'p'], 8),
   (['s', '1'], 9)] ++
  [(['a', '0'], 10),
   (['a', '1'], 11),
   (['a', '2'], 12),
   (['a', '3'], 13),
   (['a', '4'], 14),
   (['a', '5'], 15),
   (['a', '6'], 16),
   (['a', '7'], 17)] ++
  [(['s', '2'], 18),
   (['s', '3'], 19),
   (['s', '4'], 20),
   (['s', '5'], 21),
   (['s', '6'], 22),
   (['s', '7'], 23),
   (['s', '8'], 24),
   (['s', '9'], 25),
   (['s', '1', '0'], 26),
   (['s', '1', '1'], 27),
   (['t', '3'], 28),
   (['t', '4'], 29),
   (['t', '5'], 30),
   (['t', '6'], 31)]

/-- Every register name the assembler accepts with its index (R96). -/
def registerNames : List (List Char × Nat) :=
  ((List.range 32).map fun i => (xName i, i)) ++ abiNames

/-- The register a name is, whatever its case; an unknown name is an `InvalidRegisterError` (R91, R96). -/
def registerOf (line : Nat) (cs : List Char) : Except AsmStop Reg :=
  match registerNames.find? fun p => decide (p.1 = cs.map lowerChar) with
  | some p => .ok (BitVec.ofNat 5 p.2)
  | none => .error (.failed (.invalidRegister line))

/-! ## Pass 1 (R93, R94) -/

/-- The label table: names with their addresses. -/
abbrev LabelTable := List (List Char × Nat)

/-- The address of a label. -/
def LabelTable.find (t : LabelTable) (l : List Char) : Option Nat :=
  (List.find? (fun p => decide (p.1 = l)) t).map fun p => p.2

/-- How far a statement advances the address counter: 4 per instruction (R93). -/
def Stmt.size (st : Stmt) : Nat := if st.instr.isSome then 4 else 0

/-- Walk the lines in order; every label records the current address, a second definition of it fails (R93). -/
def labelPass : Nat → List Stmt → LabelTable → Except AsmStop LabelTable
  | _, [], t => .ok t
  | addr, st :: sts, t =>
    match st.label with
    | none => labelPass (addr + st.size) sts t
    | some l =>
      match LabelTable.find t l with
      | some _ => .error (.failed (.duplicateLabel st.line))
      | none => labelPass (addr + st.size) sts ((l, addr) :: t)

/-- The label a statement refers to, if any: the name in the target's place of a branch or of JAL (R98), also when it
spells a register (DESIGN CHOICE, log 17). -/
def Stmt.reference (st : Stmt) : Option (List Char) :=
  match st.instr with
  | none => none
  | some (m, os) =>
    match (mnemonicOf m).map shapeOf, os with
    | some .branch, [_, _, .name l] => some l
    | some .jump, [_, .name l] => some l
    | _, _ => none

/-- A reference to a label never defined fails before any instruction is encoded (R94). -/
def checkReferences (t : LabelTable) : List Stmt → Except AsmStop Unit
  | [] => .ok ()
  | st :: sts =>
    match st.reference with
    | none => checkReferences t sts
    | some l =>
      match LabelTable.find t l with
      | some _ => checkReferences t sts
      | none => .error (.failed (.undefinedSymbol st.line))

/-! ## Pass 2 (R94, R97 to R99) -/

/-- An I-type or S-type immediate: -2048 .. 2047 (R97). -/
def imm12Of (line : Nat) (v : Int) : Except AsmStop (BitVec 12) :=
  if -2048 ≤ v ∧ v ≤ 2047 then .ok (BitVec.ofInt 12 v) else .error (.failed (.immediateRange line))

/-- A shift amount: 0 .. 31 (R97). -/
def shamtOf (line : Nat) (v : Int) : Except AsmStop (BitVec 5) :=
  if 0 ≤ v ∧ v ≤ 31 then .ok (BitVec.ofInt 5 v) else .error (.failed (.immediateRange line))

/-- A U-type operand, the value of inst[31:12]: 0 .. 0xFFFFF (R97). -/
def imm20Of (line : Nat) (v : Int) : Except AsmStop (BitVec 20) :=
  if 0 ≤ v ∧ v ≤ 1048575 then .ok (BitVec.ofInt 20 v) else .error (.failed (.immediateRange line))

/-- A branch displacement: even, -4096 .. 4094 (R98). -/
def off13Of (line : Nat) (v : Int) : Except AsmStop (BitVec 13) :=
  if -4096 ≤ v ∧ v ≤ 4094 ∧ v % 2 = 0 then .ok (BitVec.ofInt 13 v) else .error (.failed (.offsetRange line))

/-- A JAL displacement: even, -1048576 .. 1048574 (R98). -/
def off21Of (line : Nat) (v : Int) : Except AsmStop (BitVec 21) :=
  if -1048576 ≤ v ∧ v ≤ 1048574 ∧ v % 2 = 0 then .ok (BitVec.ofInt 21 v) else .error (.failed (.offsetRange line))

/-- What encoding a statement needs to know of it. -/
structure AsmCtx where
  table : LabelTable
  /-- The instruction's own address. -/
  addr : Nat
  line : Nat
  col : Nat

/-- The operand list does not have the shape of R99 for its mnemonic. A parsed line never ends here: its list was
checked when it was parsed (`instrStmt`). -/
def AsmCtx.malformed (k : AsmCtx) : AsmStop := .failed (.syntaxError k.line k.col .malformedOperandList)

/-- The byte displacement from the instruction's own address to the target (R98). -/
def AsmCtx.displacement (k : AsmCtx) : Operand → Except AsmStop Int
  | .name l =>
    match LabelTable.find k.table l with
    | some a => .ok ((a : Int) - (k.addr : Int))
    | none => .error (.failed (.undefinedSymbol k.line))
  | .number v => .ok v
  | .indexed _ _ => .error k.malformed

/-- `op rd, rs1, rs2`. -/
def AsmCtx.asmR (k : AsmCtx) (mk : Reg → Reg → Reg → Instr) : List Operand → Except AsmStop Instr
  | [.name a, .name b, .name c] => do
    let rd ← registerOf k.line a
    let rs1 ← registerOf k.line b
    let rs2 ← registerOf k.line c
    return mk rd rs1 rs2
  | _ => .error k.malformed

/-- `op rd, rs1, imm`. -/
def AsmCtx.asmI (k : AsmCtx) (mk : Reg → Reg → BitVec 12 → Instr) : List Operand → Except AsmStop Instr
  | [.name a, .name b, .number v] => do
    let rd ← registerOf k.line a
    let rs1 ← registerOf k.line b
    let imm ← imm12Of k.line v
    return mk rd rs1 imm
  | _ => .error k.malformed

/-- `op rd, rs1, shamt`. -/
def AsmCtx.asmShift (k : AsmCtx) (mk : Reg → Reg → BitVec 5 → Instr) : List Operand → Except AsmStop Instr
  | [.name a, .name b, .number v] => do
    let rd ← registerOf k.line a
    let rs1 ← registerOf k.line b
    let shamt ← shamtOf k.line v
    return mk rd rs1 shamt
  | _ => .error k.malformed

/-- `op rd, imm20`. -/
def AsmCtx.asmU (k : AsmCtx) (mk : Reg → BitVec 20 → Instr) : List Operand → Except AsmStop Instr
  | [.name a, .number v] => do
    let rd ← registerOf k.line a
    let imm ← imm20Of k.line v
    return mk rd imm
  | _ => .error k.malformed

/-- `op r, imm(rs1)`: loads and JALR (r = rd), stores (r = rs2). Both registers are checked before the immediate (DESIGN
CHOICE, log 18). -/
def AsmCtx.asmIndexed (k : AsmCtx) (mk : Reg → Reg → BitVec 12 → Instr) : List Operand → Except AsmStop Instr
  | [.name a, .indexed v b] => do
    let r ← registerOf k.line a
    let rs1 ← registerOf k.line b
    let imm ← imm12Of k.line v
    return mk r rs1 imm
  | _ => .error k.malformed

/-- `op rs1, rs2, label`. -/
def AsmCtx.asmB (k : AsmCtx) (mk : Reg → Reg → BitVec 13 → Instr) : List Operand → Except AsmStop Instr
  | [.name a, .name b, target] => do
    let rs1 ← registerOf k.line a
    let rs2 ← registerOf k.line b
    let d ← k.displacement target
    let off ← off13Of k.line d
    return mk rs1 rs2 off
  | _ => .error k.malformed

/-- `jal rd, label`. -/
def AsmCtx.asmJ (k : AsmCtx) (mk : Reg → BitVec 21 → Instr) : List Operand → Except AsmStop Instr
  | [.name a, target] => do
    let rd ← registerOf k.line a
    let d ← k.displacement target
    let off ← off21Of k.line d
    return mk rd off
  | _ => .error k.malformed

/-- `fence`, `ecall`, `ebreak`: no operands. -/
def AsmCtx.asmNone (k : AsmCtx) (i : Instr) : List Operand → Except AsmStop Instr
  | [] => .ok i
  | _ => .error k.malformed

/-- The instruction a mnemonic and its operands stand for (R99). -/
def AsmCtx.build (k : AsmCtx) (m : Mnemonic) (os : List Operand) : Except AsmStop Instr :=
  match m with
  | .lui => k.asmU Instr.lui os
  | .auipc => k.asmU Instr.auipc os
  | .jal => k.asmJ Instr.jal os
  | .jalr => k.asmIndexed Instr.jalr os
  | .beq => k.asmB Instr.beq os
  | .bne => k.asmB Instr.bne os
  | .blt => k.asmB Instr.blt os
  | .bge => k.asmB Instr.bge os
  | .bltu => k.asmB Instr.bltu os
  | .bgeu => k.asmB Instr.bgeu os
  | .lb => k.asmIndexed Instr.lb os
  | .lh => k.asmIndexed Instr.lh os
  | .lw => k.asmIndexed Instr.lw os
  | .lbu => k.asmIndexed Instr.lbu os
  | .lhu => k.asmIndexed Instr.lhu os
  | .sb => k.asmIndexed Instr.sb os
  | .sh => k.asmIndexed Instr.sh os
  | .sw => k.asmIndexed Instr.sw os
  | .addi => k.asmI Instr.addi os
  | .slti => k.asmI Instr.slti os
  | .sltiu => k.asmI Instr.sltiu os
  | .xori => k.asmI Instr.xori os
  | .ori => k.asmI Instr.ori os
  | .andi => k.asmI Instr.andi os
  | .slli => k.asmShift Instr.slli os
  | .srli => k.asmShift Instr.srli os
  | .srai => k.asmShift Instr.srai os
  | .add => k.asmR Instr.add os
  | .sub => k.asmR Instr.sub os
  | .sll => k.asmR Instr.sll os
  | .slt => k.asmR Instr.slt os
  | .sltu => k.asmR Instr.sltu os
  | .xor => k.asmR Instr.xor os
  | .srl => k.asmR Instr.srl os
  | .sra => k.asmR Instr.sra os
  | .or => k.asmR Instr.or os
  | .and => k.asmR Instr.and os
  | .fence => k.asmNone (Instr.fence 0b0000#4 0b1111#4 0b1111#4 0#5 0#5) os
  | .ecall => k.asmNone Instr.ecall os
  | .ebreak => k.asmNone Instr.ebreak os

/-- The instruction of a mnemonic as written; any mnemonic but the 40 is unknown (R100). -/
def AsmCtx.buildNamed (k : AsmCtx) (m : List Char) (os : List Operand) : Except AsmStop Instr :=
  match mnemonicOf m with
  | some mn => k.build mn os
  | none => .error (.failed (.unknownMnemonic k.line))

/-- Re-walk the lines with the complete table; exactly one instruction per instruction line, in order (R94). -/
def encodePass (t : LabelTable) : Nat → List Stmt → Except AsmStop (List Instr)
  | _, [] => .ok []
  | addr, st :: sts =>
    match st.instr with
    | none => encodePass t addr sts
    | some (m, os) =>
      match AsmCtx.buildNamed ⟨t, addr, st.line, st.col⟩ m os with
      | .error e => .error e
      | .ok i =>
        match encodePass t (addr + 4) sts with
        | .error e => .error e
        | .ok is => .ok (i :: is)

/-- The instructions of a source text, or how its assembly stops (R90 to R101). -/
def assembleInstrs (text : List Char) : Except AsmStop (List Instr) :=
  match parseLines 1 (splitLines (unescape text)) with
  | .error e => .error e
  | .ok sts =>
    match labelPass 0 sts [] with
    | .error e => .error e
    | .ok t =>
      match checkReferences t sts with
      | .error e => .error e
      | .ok _ => encodePass t 0 sts

/-- The words of a source text (R94), or how its assembly stops. -/
def assembleText (text : List Char) : Except AsmStop (List Word) :=
  match assembleInstrs text with
  | .error e => .error e
  | .ok is => .ok (is.map encode)

/-! ## Disassembly (R99, R102) -/

/-- A register as the listing shows it. -/
def regChars (r : Reg) : List Char := xName r.toNat

/-- Operands separated by a comma and a space. -/
def commaJoin : List (List Char) → List Char
  | [] => []
  | [o] => o
  | o :: os => o ++ [',', ' '] ++ commaJoin os

/-- Mnemonic and operands of a line. -/
def formChars (m : Mnemonic) (os : List (List Char)) : List Char :=
  if os.isEmpty then mnemonicChars m else mnemonicChars m ++ [' '] ++ commaJoin os

/-- `imm(rs1)`. -/
def indexedChars (imm : BitVec 12) (rs1 : Reg) : List Char :=
  intChars imm.toInt ++ ['('] ++ regChars rs1 ++ [')']

/-- The operands of an instruction in the syntax of R99; a branch or jump target is its byte displacement. -/
def operandChars : Instr → List (List Char)
  | .lui rd imm | .auipc rd imm => [regChars rd, natChars imm.toNat]
  | .jal rd off => [regChars rd, intChars off.toInt]
  | .jalr r rs1 imm | .lb r rs1 imm | .lh r rs1 imm | .lw r rs1 imm | .lbu r rs1 imm | .lhu r rs1 imm
  | .sb r rs1 imm | .sh r rs1 imm | .sw r rs1 imm => [regChars r, indexedChars imm rs1]
  | .beq a b off | .bne a b off | .blt a b off | .bge a b off | .bltu a b off | .bgeu a b off =>
    [regChars a, regChars b, intChars off.toInt]
  | .addi rd rs1 imm | .slti rd rs1 imm | .sltiu rd rs1 imm | .xori rd rs1 imm | .ori rd rs1 imm
  | .andi rd rs1 imm => [regChars rd, regChars rs1, intChars imm.toInt]
  | .slli rd rs1 sh | .srli rd rs1 sh | .srai rd rs1 sh => [regChars rd, regChars rs1, natChars sh.toNat]
  | .add rd a b | .sub rd a b | .sll rd a b | .slt rd a b | .sltu rd a b | .xor rd a b | .srl rd a b | .sra rd a b
  | .or rd a b | .and rd a b => [regChars rd, regChars a, regChars b]
  | .fence _ _ _ _ _ | .ecall | .ebreak => []

/-- The disassembled mnemonic and operand form of an instruction (R102). -/
def disassemble (i : Instr) : List Char := formChars i.mnemonic (operandChars i)

/-- The line of a word at an address (R102). -/
def listingLine (addr : Nat) (w : Word) : ListingLine :=
  match decode w with
  | .ok i => ⟨addr, w, some i, disassemble i⟩
  | .error _ => ⟨addr, w, none, []⟩

/-- The listing of an image: one line per word, from the given address on (R102). -/
def listingFrom : Nat → List Word → List ListingLine
  | _, [] => []
  | addr, w :: ws => listingLine addr w :: listingFrom (addr + 4) ws

end Sys2Proof.Machine
end

