-- ==== Sys2Proof/Machine/HostCalls.lean ====
section
/-! DEFINITION. The host's calls (70_reset_and_hazards.md): construct State, assemble, get_text, run, get_state,
get_logs, each run to completion, one at a time, only while the hart does not run (R10, R252). -/

namespace Sys2Proof.Machine

/-- Give the host something back. -/
def State.reply (s : State) (r : Reply) : State := { s with replies := s.replies ++ [r] }

/-- `construct State` (R240): every field as right after reset, but for the log, which is process-wide, and what is not
the State's: the parameters and the host's own script (log 10). -/
def callConstruct (s : State) : Result :=
  .next { State.reset with log := s.log, config := s.config, calls := s.calls, replies := s.replies }

/-- Image load (R242): IMAGE, memory with the image's bytes at address 0 and zeros after it, registers, pc and steps 0,
status Assembled. -/
def loadImage (ws : List Word) (s : State) : State :=
  { s with
    image := ws
    mem := Memory.ofBytes 0 (ws.flatMap wordBytes)
    xregs := Vector.replicate 31 0#32
    pc := 0#32
    steps := 0
    status := .assembled }

/-- `assemble(text)` (R241 to R243): on success the image load, which adds no log entry (R31 leaves open which entries the
assembler adds: DESIGN CHOICE, log 15); on failure one log entry (R243, log 15) and the host's reply (log 22). An image
larger than memory (R253, log 12) and a text with a directive (R101, U7 of 93_implementation_defined.md, log 13) have no
meaning. -/
def callAssemble (text : List Char) (s : State) : Result :=
  match assembleText text with
  | .ok ws => if 4 * ws.length ≤ s.config.memSize then .next (loadImage ws s) else .refused .imageTooLarge
  | .error (.failed e) => .next (State.reply { s with log := s.log ++ [.assembly e] } (.assemblyFailed e))
  | .error (.directive line) => .refused (.directive line)

/-- `get_text()` lists IMAGE, not memory (R249). Before any successful assemble, where R102, R249 and U9 of
93_implementation_defined.md allow an empty or an absent listing, it gives the empty one (DESIGN CHOICE, log 16). -/
def callGetText (s : State) : Result := .next (s.reply (.listing (listingFrom 0 s.image)))

/-- The launch state (R244): pc 0, steps 0, status Running; registers and memory are kept. -/
def startRun (s : State) : State := { s with pc := 0#32, steps := 0, status := .running }

/-- `run()` (R244): starts a run in Assembled and Halted(r), otherwise InvalidStateError and no change. -/
def callRun (s : State) : Result :=
  match s.status with
  | .assembled => .next (startRun s)
  | .halted _ => .next (startRun s)
  | .uninitialized => .next (s.reply .invalidState)
  | .running => .next (s.reply .invalidState)
  | .trapped _ => .next (s.reply .invalidState)

/-- `get_state()` gives (status, pc, x[0] .. x[31]) (R248). -/
def callGetState (s : State) : Result := .next (s.reply (.dump s.status s.pc s.regList))

/-- `get_logs()` drains the log, oldest entry first (R250). -/
def callGetLogs (s : State) : Result := .next (State.reply { s with log := [] } (.logs s.log))

/-- The effect of a host call. -/
def hostCall (c : HostCall) (s : State) : Result :=
  match c with
  | .construct => callConstruct s
  | .assemble text => callAssemble text s
  | .getText => callGetText s
  | .run => callRun s
  | .getState => callGetState s
  | .getLogs => callGetLogs s

/-- The host's turn: its next call, if it has one to make (R252, log 9, log 10). -/
def hostTurn (s : State) : Result :=
  match s.calls with
  | [] => .fault .noStep
  | c :: cs => hostCall c { s with calls := cs }

end Sys2Proof.Machine
end

