-- ==== Sys2Proof/Machine/Operands.lean ====
section
/-! DEFINITION. The operand forms: the immediates as 32-bit patterns (30_encoding.md R72 to R77), the one addressing
mode (43_load_store.md R170), the jump and branch targets (42_control_transfer.md), the shift amount of a register
(41_integer_register_register.md R133), and the extensions of loaded values. -/

namespace Sys2Proof.Machine

/-- sext_N: bits 31..N all equal to bit N-1 (00_scope.md section 7). -/
def sext {n : Nat} (v : BitVec n) : Word := v.signExtend 32

/-- zext_N: bits 31..N zero (00_scope.md section 7). -/
def zext {n : Nat} (v : BitVec n) : Word := v.setWidth 32

/-- immU = inst[31:12] ++ 0^12 (R75). -/
def upperImm (imm : BitVec 20) : Word := imm ++ 0#12

/-- ea = x[rs1] + imm modulo 2^32, imm sign-extended from 12 bits (R170 a). -/
def effectiveAddress (s : State) (rs1 : Reg) (imm : BitVec 12) : Word := s.x rs1 + sext imm

/-- pc + immB or pc + immJ modulo 2^32: a byte displacement from the instruction's own address (R74, R76, R150 e). -/
def relativeTarget {n : Nat} (s : State) (off : BitVec n) : Word := s.pc + sext off

/-- (x[rs1] + immI) AND 0xFFFFFFFE (R152). -/
def indirectTarget (s : State) (rs1 : Reg) (imm : BitVec 12) : Word := (s.x rs1 + sext imm) &&& 0xFFFFFFFE#32

/-- x[rs2][4:0]: only the low 5 bits count as a shift amount (R133, R141 e). -/
def shiftAmount (v : Word) : BitVec 5 := v.extractLsb' 0 5

/-- v << k, zeros enter at bit 0 (00_scope.md section 7). -/
def shiftLeft (v : Word) (k : BitVec 5) : Word := v <<< k.toNat

/-- v >>u k, zeros enter at bit 31 (00_scope.md section 7). -/
def shiftRightLogical (v : Word) (k : BitVec 5) : Word := v >>> k.toNat

/-- v >>s k, copies of bit 31 enter at bit 31 (00_scope.md section 7). -/
def shiftRightArith (v : Word) (k : BitVec 5) : Word := v.sshiftRight k.toNat

end Sys2Proof.Machine
end

