-- ==== Sys2Proof/Machine/Flags.lean ====
section
/-! DEFINITION. There are no flags or condition codes (10_state.md R18): conditions compare two registers directly
(42_control_transfer.md R150 f). This file holds those comparisons, and the 0 or 1 a set-if-less-than writes. -/

namespace Sys2Proof.Machine

/-- a <s b: comparison of signed(a) with signed(b) (00_scope.md section 7). -/
def lessSigned (a b : Word) : Bool := decide (a.toInt < b.toInt)

/-- a <u b: comparison of unsigned(a) with unsigned(b) (00_scope.md section 7). -/
def lessUnsigned (a b : Word) : Bool := decide (a.toNat < b.toNat)

/-- The result of a set-if-less-than: 0x00000001 or 0x00000000 (R112). -/
def boolWord (c : Bool) : Word := if c then 1#32 else 0#32

end Sys2Proof.Machine
end

