-- ==== Sys2Proof/Machine/Control.lean ====
section
/-! DEFINITION. Control transfer instructions (42_control_transfer.md, R150 to R158). -/

namespace Sys2Proof.Machine

/-- JAL: target = pc + immJ (R151). -/
def execJal (rd : Reg) (off : BitVec 21) (s : State) : Result := jumpAndLink rd (relativeTarget s off) s

/-- JALR: target = (x[rs1] + immI) with bit 0 cleared, from the old x[rs1] (R152). -/
def execJalr (rd rs1 : Reg) (imm : BitVec 12) (s : State) : Result := jumpAndLink rd (indirectTarget s rs1 imm) s

/-- BEQ (R153). -/
def execBeq (rs1 rs2 : Reg) (off : BitVec 13) (s : State) : Result :=
  branchIf (decide (s.x rs1 = s.x rs2)) (relativeTarget s off) s

/-- BNE (R154). -/
def execBne (rs1 rs2 : Reg) (off : BitVec 13) (s : State) : Result :=
  branchIf (!decide (s.x rs1 = s.x rs2)) (relativeTarget s off) s

/-- BLT (R155). -/
def execBlt (rs1 rs2 : Reg) (off : BitVec 13) (s : State) : Result :=
  branchIf (lessSigned (s.x rs1) (s.x rs2)) (relativeTarget s off) s

/-- BGE: the complement of BLT (R156). -/
def execBge (rs1 rs2 : Reg) (off : BitVec 13) (s : State) : Result :=
  branchIf (!lessSigned (s.x rs1) (s.x rs2)) (relativeTarget s off) s

/-- BLTU (R157). -/
def execBltu (rs1 rs2 : Reg) (off : BitVec 13) (s : State) : Result :=
  branchIf (lessUnsigned (s.x rs1) (s.x rs2)) (relativeTarget s off) s

/-- BGEU: the complement of BLTU (R158). -/
def execBgeu (rs1 rs2 : Reg) (off : BitVec 13) (s : State) : Result :=
  branchIf (!lessUnsigned (s.x rs1) (s.x rs2)) (relativeTarget s off) s

end Sys2Proof.Machine
end

