-- ==== Sys2Proof/Machine/LoadStore.lean ====
section
/-! DEFINITION. Load and store instructions (43_load_store.md, R170 to R178). -/

namespace Sys2Proof.Machine

/-- LB: x[rd] <- sext_8(MemRead(ea, 1)) (R171). -/
def execLb (rd rs1 : Reg) (imm : BitVec 12) (s : State) : Result :=
  loadInto rd (effectiveAddress s rs1 imm) 1 sext s

/-- LH: x[rd] <- sext_16(MemRead(ea, 2)) (R172). -/
def execLh (rd rs1 : Reg) (imm : BitVec 12) (s : State) : Result :=
  loadInto rd (effectiveAddress s rs1 imm) 2 sext s

/-- LW: x[rd] <- MemRead(ea, 4); "no extension is needed" (R173). -/
def execLw (rd rs1 : Reg) (imm : BitVec 12) (s : State) : Result :=
  loadInto rd (effectiveAddress s rs1 imm) 4 zext s

/-- LBU: x[rd] <- zext_8(MemRead(ea, 1)) (R174). -/
def execLbu (rd rs1 : Reg) (imm : BitVec 12) (s : State) : Result :=
  loadInto rd (effectiveAddress s rs1 imm) 1 zext s

/-- LHU: x[rd] <- zext_16(MemRead(ea, 2)) (R175). -/
def execLhu (rd rs1 : Reg) (imm : BitVec 12) (s : State) : Result :=
  loadInto rd (effectiveAddress s rs1 imm) 2 zext s

/-- SB: MemWrite(ea, 1, x[rs2][7:0]) (R176). -/
def execSb (rs2 rs1 : Reg) (imm : BitVec 12) (s : State) : Result :=
  storeAt (effectiveAddress s rs1 imm) 1 ((s.x rs2).extractLsb' 0 8) s

/-- SH: MemWrite(ea, 2, x[rs2][15:0]) (R177). -/
def execSh (rs2 rs1 : Reg) (imm : BitVec 12) (s : State) : Result :=
  storeAt (effectiveAddress s rs1 imm) 2 ((s.x rs2).extractLsb' 0 16) s

/-- SW: MemWrite(ea, 4, x[rs2]) (R178). -/
def execSw (rs2 rs1 : Reg) (imm : BitVec 12) (s : State) : Result :=
  storeAt (effectiveAddress s rs1 imm) 4 (s.x rs2) s

end Sys2Proof.Machine
end

