-- ==== Sys2Proof/Machine/RegImm.lean ====
section
/-! DEFINITION. Integer register-immediate instructions (40_integer_register_immediate.md, R110 to R121). -/

namespace Sys2Proof.Machine

/-- LUI: x[rd] <- immU (R120). -/
def execLui (rd : Reg) (imm : BitVec 20) (s : State) : Result := writeBack rd (upperImm imm) s

/-- AUIPC: x[rd] <- pc + immU, pc the address of this AUIPC (R121). -/
def execAuipc (rd : Reg) (imm : BitVec 20) (s : State) : Result := writeBack rd (s.pc + upperImm imm) s

/-- ADDI: x[rd] <- x[rs1] + immI (R111). -/
def execAddi (rd rs1 : Reg) (imm : BitVec 12) (s : State) : Result := writeBack rd (s.x rs1 + sext imm) s

/-- SLTI: x[rd] <- 1 if x[rs1] <s immI, else 0 (R112). -/
def execSlti (rd rs1 : Reg) (imm : BitVec 12) (s : State) : Result :=
  writeBack rd (boolWord (lessSigned (s.x rs1) (sext imm))) s

/-- SLTIU: x[rd] <- 1 if x[rs1] <u immI, else 0; immI is sign-extended first (R113). -/
def execSltiu (rd rs1 : Reg) (imm : BitVec 12) (s : State) : Result :=
  writeBack rd (boolWord (lessUnsigned (s.x rs1) (sext imm))) s

/-- XORI (R114). -/
def execXori (rd rs1 : Reg) (imm : BitVec 12) (s : State) : Result := writeBack rd (s.x rs1 ^^^ sext imm) s

/-- ORI (R115). -/
def execOri (rd rs1 : Reg) (imm : BitVec 12) (s : State) : Result := writeBack rd (s.x rs1 ||| sext imm) s

/-- ANDI (R116). -/
def execAndi (rd rs1 : Reg) (imm : BitVec 12) (s : State) : Result := writeBack rd (s.x rs1 &&& sext imm) s

/-- SLLI (R117). -/
def execSlli (rd rs1 : Reg) (shamt : BitVec 5) (s : State) : Result := writeBack rd (shiftLeft (s.x rs1) shamt) s

/-- SRLI (R118). -/
def execSrli (rd rs1 : Reg) (shamt : BitVec 5) (s : State) : Result :=
  writeBack rd (shiftRightLogical (s.x rs1) shamt) s

/-- SRAI (R119). -/
def execSrai (rd rs1 : Reg) (shamt : BitVec 5) (s : State) : Result :=
  writeBack rd (shiftRightArith (s.x rs1) shamt) s

end Sys2Proof.Machine
end

