-- ==== Sys2Proof/Machine/RegReg.lean ====
section
/-! DEFINITION. Integer register-register instructions (41_integer_register_register.md, R130 to R141). -/

namespace Sys2Proof.Machine

/-- ADD: x[rd] <- x[rs1] + x[rs2] (R131). -/
def execAdd (rd rs1 rs2 : Reg) (s : State) : Result := writeBack rd (s.x rs1 + s.x rs2) s

/-- SUB: x[rd] <- x[rs1] - x[rs2] (R132). -/
def execSub (rd rs1 rs2 : Reg) (s : State) : Result := writeBack rd (s.x rs1 - s.x rs2) s

/-- SLL: x[rd] <- x[rs1] << x[rs2][4:0] (R133). -/
def execSll (rd rs1 rs2 : Reg) (s : State) : Result :=
  writeBack rd (shiftLeft (s.x rs1) (shiftAmount (s.x rs2))) s

/-- SLT: x[rd] <- 1 if x[rs1] <s x[rs2], else 0 (R134). -/
def execSlt (rd rs1 rs2 : Reg) (s : State) : Result :=
  writeBack rd (boolWord (lessSigned (s.x rs1) (s.x rs2))) s

/-- SLTU: x[rd] <- 1 if x[rs1] <u x[rs2], else 0 (R135). -/
def execSltu (rd rs1 rs2 : Reg) (s : State) : Result :=
  writeBack rd (boolWord (lessUnsigned (s.x rs1) (s.x rs2))) s

/-- XOR (R136). -/
def execXor (rd rs1 rs2 : Reg) (s : State) : Result := writeBack rd (s.x rs1 ^^^ s.x rs2) s

/-- SRL: x[rd] <- x[rs1] >>u x[rs2][4:0] (R137). -/
def execSrl (rd rs1 rs2 : Reg) (s : State) : Result :=
  writeBack rd (shiftRightLogical (s.x rs1) (shiftAmount (s.x rs2))) s

/-- SRA: x[rd] <- x[rs1] >>s x[rs2][4:0] (R138). -/
def execSra (rd rs1 rs2 : Reg) (s : State) : Result :=
  writeBack rd (shiftRightArith (s.x rs1) (shiftAmount (s.x rs2))) s

/-- OR (R139). -/
def execOr (rd rs1 rs2 : Reg) (s : State) : Result := writeBack rd (s.x rs1 ||| s.x rs2) s

/-- AND (R140). -/
def execAnd (rd rs1 rs2 : Reg) (s : State) : Result := writeBack rd (s.x rs1 &&& s.x rs2) s

end Sys2Proof.Machine
end

