-- ==== Sys2Proof/Machine/System.lean ====
section
/-! DEFINITION. FENCE (44_memory_ordering.md R190), ECALL and EBREAK (45_environment.md R195, R196). -/

namespace Sys2Proof.Machine

/-- FENCE: a no-operation that ignores every field; pc <- pc + 4, rd is not written (R190). -/
def execFence (_fm _pred _succ : BitVec 4) (_rs1 _rd : Reg) (s : State) : Result := .next s.retire

/-- ECALL: halt Exit; no register is read, it does not retire (R195). -/
def execEcall (s : State) : Result := .next (s.haltWith .exit)

/-- EBREAK: halt Breakpoint; it does not retire (R196). -/
def execEbreak (s : State) : Result := .next (s.haltWith .breakpoint)

end Sys2Proof.Machine
end

