-- ==== Sys2Proof/Machine/Run.lean ====
section
/-! DEFINITION. The hart: the step, the run loop around it (70_reset_and_hazards.md R245, R246), and the launch of one
word that `State.withFetchWord` stands for (log 20). -/

namespace Sys2Proof.Machine

/-- `Step()` (R246): fetch, decode, execute; a trap raised by fetch or decode is taken here (R205). -/
def hartStep (s : State) : Result :=
  match fetch s s.pc with
  | .error c => .next (s.takeTrap c)
  | .ok w =>
    match decode w with
    | .error _ => .next (s.takeTrap (.illegalInstruction w))
    | .ok i => exec i s

/-- One turn of the run loop: the step bound is tested before the fetch (R245, R210). -/
def runLoop (s : State) : Result :=
  if s.steps ≥ s.config.maxSteps then .next s.haltAtLimit else hartStep s

/-- An image in which word `k` exists: the given one, or the given one lengthened with zero words and `w` as word `k`. -/
def imageReaching (image : List Word) (k : Nat) (w : Word) : List Word :=
  if k < image.length then image else image ++ List.replicate (k - image.length) 0#32 ++ [w]

/-- The pc a launched word runs at: the present one if a word can be fetched there, else the entry address 0 (R244). -/
def State.launchPc (s : State) : Word :=
  if s.pc.toNat % 4 = 0 ∧ s.pc.toNat + 4 ≤ s.config.memSize then s.pc else 0#32

/-- `s` with `w` in memory at the pc, ready to run: status Running, the image long enough to fetch it, and the step
count below the bound (R244, R48, R210; log 20). -/
def State.launchWord (s : State) (w : Word) : State :=
  { s with
    status := .running
    pc := s.launchPc
    steps := if s.steps < s.config.maxSteps then s.steps else 0
    image := imageReaching s.image (s.launchPc.toNat / 4) w
    mem := Memory.writeLE s.mem s.launchPc.toNat 4 w }

end Sys2Proof.Machine
end

