-- ==== Sys2Proof/Machine/Step.lean ====
section
/-! DEFINITION. One step of the machine. -/

namespace Sys2Proof.Machine

/-- While status is Running the hart moves, by one turn of the run loop (R245); otherwise the host does, by one call
(R10, R22, R252). -/
def step (s : State) : Host.Outcome State Fault Refusal :=
  if s.status = .running then runLoop s else hostTurn s

/-- The state in which the next step fetches and runs the word whose bits are `w`, numbered as spec/opcode_table.json
numbers them, when MAX_STEPS is not 0 (log 20). -/
def State.withFetchWord (s : State) (nbits w : Nat) : State := s.launchWord (tableWord nbits w)

end Sys2Proof.Machine
end

