-- ==== Sys2Proof/Safety.lean ====
section
/-! DEFINITION. The words the claims use: the invariant of the machine, what a retiring, a trapping and a halting
instruction leave unchanged, and the relation of status changes (10_state.md R22). -/

namespace Sys2Proof.Machine

/-! ## The invariant -/

/-- What every state of a machine with legal parameters keeps: memory in its canonical form and inside the capacity
(R25, R45), the parameters of R5, the launch premise image_end <= MEM_SIZE (R8, R253), the pc a multiple of 4 (R17),
and no more than MAX_STEPS retired instructions (R23). -/
structure State.Inv (s : State) : Prop where
  memWf : Memory.Wf s.mem
  memBelow : Memory.Below s.mem s.config.memSize
  legal : s.config.Legal
  imageFits : s.imageEnd ≤ s.config.memSize
  pcAligned : s.pc.toNat % 4 = 0
  stepsBounded : s.steps ≤ s.config.maxSteps

/-! ## Frames -/

/-- Every register but `rd` reads as before. -/
def SameRegsBut (rd : Reg) (s t : State) : Prop := ∀ r : Reg, r ≠ rd → t.x r = s.x r

/-- Every register reads as before. -/
def SameRegs (s t : State) : Prop := ∀ r : Reg, t.x r = s.x r

/-- Every byte of memory reads as before. -/
def SameBytes (s t : State) : Prop := ∀ a : Nat, Memory.byte t.mem a = Memory.byte s.mem a

/-- Every byte outside `[a, a + n)` reads as before, and byte `a + i` is bits 8i+7..8i of `v` (R44). -/
def BytesWritten (a n : Nat) (v : Word) (s t : State) : Prop :=
  (∀ b : Nat, b < a ∨ a + n ≤ b → Memory.byte t.mem b = Memory.byte s.mem b) ∧
    ∀ i : Nat, i < n → Memory.byte t.mem (a + i) = v.extractLsb' (8 * i) 8

/-- What no instruction writes: IMAGE, the parameters, and the host's side (R24, R30, R252). -/
def SameOutside (s t : State) : Prop :=
  t.image = s.image ∧ t.config = s.config ∧ t.calls = s.calls ∧ t.replies = s.replies

/-- The instruction retired and control goes to `target`: status and log are as before, one more step is counted
(R16, R246). -/
def RetiredTo (target : Word) (s t : State) : Prop :=
  t.pc = target ∧ t.steps = s.steps + 1 ∧ t.status = s.status ∧ t.log = s.log ∧ SameOutside s t

/-- `rd` holds `v`, or still 0 when it is x0 (R12); no other register and no byte of memory changed. -/
def WroteReg (rd : Reg) (v : Word) (s t : State) : Prop :=
  t.x rd = (if rd = 0#5 then 0#32 else v) ∧ SameRegsBut rd s t ∧ SameBytes s t

/-- The instruction took trap `c`: status, and one log entry with the cause and the pc; nothing else changed (R206). -/
def Trapped (c : TrapCause) (s t : State) : Prop :=
  t.status = .trapped c ∧ t.log = s.log ++ [.trap c s.pc] ∧ t.pc = s.pc ∧ t.steps = s.steps ∧
    SameRegs s t ∧ SameBytes s t ∧ SameOutside s t

/-- The instruction halted the run for reason `r`; nothing else changed (R209). -/
def HaltedFor (r : HaltReason) (s t : State) : Prop :=
  t.status = .halted r ∧ t.log = s.log ∧ t.pc = s.pc ∧ t.steps = s.steps ∧
    SameRegs s t ∧ SameBytes s t ∧ SameOutside s t

/-- The instruction answers a next state in which `rd` was written with `v` and control goes on at pc + 4. -/
def Writes (i : Instr) (rd : Reg) (v : Word) (s : State) : Prop :=
  ∃ t, exec i s = .next t ∧ WroteReg rd v s t ∧ RetiredTo (s.pc + 4#32) s t

/-- The instruction answers a next state in which `rd` was written with the link value pc + 4 and control is at
`target`. -/
def LinksTo (i : Instr) (rd : Reg) (target : Word) (s : State) : Prop :=
  ∃ t, exec i s = .next t ∧ WroteReg rd (s.pc + 4#32) s t ∧ RetiredTo target s t

/-- The instruction answers a next state in which only control moved, to `target`. -/
def GoesTo (i : Instr) (target : Word) (s : State) : Prop :=
  ∃ t, exec i s = .next t ∧ SameRegs s t ∧ SameBytes s t ∧ RetiredTo target s t

/-- The instruction answers a next state in which the low `n` bytes of `v` were written at `a`, and only they. -/
def Stores (i : Instr) (a n : Nat) (v : Word) (s : State) : Prop :=
  ∃ t, exec i s = .next t ∧ SameRegs s t ∧ BytesWritten a n v s t ∧ RetiredTo (s.pc + 4#32) s t

/-- The instruction answers a next state in which trap `c` was taken. -/
def Traps (i : Instr) (c : TrapCause) (s : State) : Prop :=
  ∃ t, exec i s = .next t ∧ Trapped c s t

/-- The three cases of a conditional branch with the given condition and target (R150 b, R153 to R158). -/
def BranchesOn (i : Instr) (cond : Prop) (target : Word) (s : State) : Prop :=
  (cond → target.toNat % 4 = 0 → GoesTo i target s) ∧
    (cond → target.toNat % 4 ≠ 0 → Traps i (.misaligned .jump target) s) ∧
    (¬cond → GoesTo i (s.pc + 4#32) s)

/-- The destination register of an instruction, if it has one (R71). FENCE's rd field is ignored (R190). -/
def destination : Instr → Option Reg
  | .lui rd _ | .auipc rd _ | .jal rd _ | .jalr rd _ _ => some rd
  | .lb rd _ _ | .lh rd _ _ | .lw rd _ _ | .lbu rd _ _ | .lhu rd _ _ => some rd
  | .addi rd _ _ | .slti rd _ _ | .sltiu rd _ _ | .xori rd _ _ | .ori rd _ _ | .andi rd _ _ => some rd
  | .slli rd _ _ | .srli rd _ _ | .srai rd _ _ => some rd
  | .add rd _ _ | .sub rd _ _ | .sll rd _ _ | .slt rd _ _ | .sltu rd _ _ | .xor rd _ _ | .srl rd _ _ | .sra rd _ _
  | .or rd _ _ | .and rd _ _ => some rd
  | .beq _ _ _ | .bne _ _ _ | .blt _ _ _ | .bge _ _ _ | .bltu _ _ _ | .bgeu _ _ _ => none
  | .sb _ _ _ | .sh _ _ _ | .sw _ _ _ => none
  | .fence _ _ _ _ _ | .ecall | .ebreak => none

/-- Where and how many bytes an instruction stores, if it is a store (R176 to R178): the address its meaning uses. -/
def storeRange (i : Instr) (s : State) : Option (Nat × Nat) :=
  match i with
  | .sb _ rs1 imm => some ((effectiveAddress s rs1 imm).toNat, 1)
  | .sh _ rs1 imm => some ((effectiveAddress s rs1 imm).toNat, 2)
  | .sw _ rs1 imm => some ((effectiveAddress s rs1 imm).toNat, 4)
  | _ => none

/-- The target a control transfer computes, if the instruction is one (R151 to R158). -/
def transferTarget (i : Instr) (s : State) : Option Word :=
  match i with
  | .jal _ off => some (relativeTarget s off)
  | .jalr _ rs1 imm => some (indirectTarget s rs1 imm)
  | .beq _ _ off | .bne _ _ off | .blt _ _ off | .bge _ _ off | .bltu _ _ off | .bgeu _ _ off =>
    some (relativeTarget s off)
  | _ => none

/-! ## The log as data (R26) -/

/-- The state with another log. -/
def State.withLog (s : State) (l : List LogEntry) : State := { s with log := l }

/-! ## Status changes (R22) -/

/-- Who moves: the hart, or the host by a call. -/
inductive Mover where
  | hart
  | host (c : HostCall)
  deriving DecidableEq, Repr

/-- The move a state is about to make: the hart's while Running, else the host's next call. -/
def nextMover (s : State) : Option Mover :=
  if s.status = .running then some .hart else s.calls.head?.map Mover.host

/-- The complete relation of R22, one constructor per row of its table, and one for the calls that only read. -/
inductive StatusMove : Mover → Status → Status → Prop where
  | construct (σ : Status) : StatusMove (.host .construct) σ .uninitialized
  | assembleSucceeds (text : List Char) (σ : Status) : σ ≠ .running → StatusMove (.host (.assemble text)) σ .assembled
  | assembleFails (text : List Char) (σ : Status) : σ ≠ .running → StatusMove (.host (.assemble text)) σ σ
  | runAssembled : StatusMove (.host .run) .assembled .running
  | runHalted (r : HaltReason) : StatusMove (.host .run) (.halted r) .running
  | runRefusedUninitialized : StatusMove (.host .run) .uninitialized .uninitialized
  | runRefusedRunning : StatusMove (.host .run) .running .running
  | runRefusedTrapped (c : TrapCause) : StatusMove (.host .run) (.trapped c) (.trapped c)
  | retire : StatusMove .hart .running .running
  | ecall : StatusMove .hart .running (.halted .exit)
  | ebreak : StatusMove .hart .running (.halted .breakpoint)
  | stepLimit : StatusMove .hart .running (.halted .stepLimitExceeded)
  | trap (c : TrapCause) : StatusMove .hart .running (.trapped c)
  | getText (σ : Status) : StatusMove (.host .getText) σ σ
  | getState (σ : Status) : StatusMove (.host .getState) σ σ
  | getLogs (σ : Status) : StatusMove (.host .getLogs) σ σ

end Sys2Proof.Machine
end

