-- ==== Sys2Proof/Certificates/Slice0/Obligations.lean ====
section
/-! DEFINITION. The statements for the provers. Each docstring names the rule of spec/ it formalises; where a clause
rests on a decision of spec/92_eei_decisions.md or on a log entry of this model, the docstring says so. -/

open Sys2Proof Sys2Proof.Machine

/-! ## Encoding -/

/-- R87: "For every instruction i of rule R82 with in-range operands, Decode(Encode(i)) = i". -/
def Obligations.DecodeEncodeRoundTrip : Prop :=
  ∀ i : Instr, i.wellFormed = true → decode (encode i) = .ok i

/-- The other direction of R81 and R87: every legal word is the encoding of the instruction it decodes to, so no bit of
a word is dropped (FENCE's ignored fields are kept in its term, log 14). -/
def Obligations.EncodeDecodeRoundTrip : Prop :=
  ∀ (w : Word) (i : Instr), decode w = .ok i → i.wellFormed = true ∧ encode i = w

/-- R82: a word is a row's instruction exactly when `w AND mask = match`, and no two rows match the same word. -/
def Obligations.DecodeAgreesWithOpcodeTable : Prop :=
  (∀ (w : Word) (row : OpcodeRow), row ∈ opcodeRows →
      (row.Matches w ↔ ∃ i, decode w = .ok i ∧ i.mnemonic = row.mnemonic)) ∧
    ∀ (w : Word) (row row' : OpcodeRow), row ∈ opcodeRows → row' ∈ opcodeRows → row.Matches w → row'.Matches w →
      row = row'

/-- R83 (decision D20): a word is illegal exactly when no row of R82 matches it. -/
def Obligations.IllegalIsTheComplement : Prop :=
  ∀ w : Word, (∃ e, decode w = .error e) ↔ ∀ row ∈ opcodeRows, ¬row.Matches w

/-- The words the spec's rules print for one instruction of each family decode to it (R111, R117, R120, R131, R151,
R152, R154, R173, R178, R190, R195, R196). -/
def Obligations.PrintedWordsDecode : Prop :=
  decode 0xFFF30293#32 = .ok (.addi 5#5 6#5 (-1#12)) ∧
    decode 0x00431293#32 = .ok (.slli 5#5 6#5 4#5) ∧
    decode 0x123452B7#32 = .ok (.lui 5#5 0x12345#20) ∧
    decode 0x007302B3#32 = .ok (.add 5#5 6#5 7#5) ∧
    decode 0x008000EF#32 = .ok (.jal 1#5 8#21) ∧
    decode 0x004280E7#32 = .ok (.jalr 1#5 5#5 4#12) ∧
    decode 0xFE731CE3#32 = .ok (.bne 6#5 7#5 (-8#13)) ∧
    decode 0x00432283#32 = .ok (.lw 5#5 6#5 4#12) ∧
    decode 0xFE732E23#32 = .ok (.sw 7#5 6#5 (-4#12)) ∧
    decode 0x0FF0000F#32 = .ok (.fence 0#4 15#4 15#4 0#5 0#5) ∧
    decode 0x00000073#32 = .ok .ecall ∧ decode 0x00100073#32 = .ok .ebreak

/-! ## Registers and memory -/

/-- R11, R12, R14: a register reads what was last written to it, a write changes no other register and nothing but
registers, x0 reads as 0 and a write to it is discarded. -/
def Obligations.RegisterFileRule : Prop :=
  ∀ (s : State) (r q : Reg) (v : Word),
    s.x 0#5 = 0#32 ∧ (s.setX 0#5 v) = s ∧
      (s.setX r v).x q = (if q = r ∧ r ≠ 0#5 then v else s.x q) ∧
      (s.setX r v).pc = s.pc ∧ (s.setX r v).status = s.status ∧ (s.setX r v).steps = s.steps ∧
      (s.setX r v).mem = s.mem ∧ (s.setX r v).log = s.log ∧ SameOutside s (s.setX r v)

/-- R43: MemRead checks alignment, then bounds, and returns the bytes little-endian. -/
def Obligations.MemReadRule : Prop :=
  ∀ (s : State) (addr : Word) (n : Nat), n = 1 ∨ n = 2 ∨ n = 4 →
    (addr.toNat % n ≠ 0 → memRead s addr n = .error (.misaligned .load addr)) ∧
      (addr.toNat % n = 0 → addr.toNat + n > s.config.memSize → memRead s addr n = .error (.outOfBounds .load addr)) ∧
      (addr.toNat % n = 0 → addr.toNat + n ≤ s.config.memSize →
        ∃ v, memRead s addr n = .ok v ∧
          ∀ i : Nat, i < n → v.extractLsb' (8 * i) 8 = Memory.byte s.mem (addr.toNat + i))

/-- R44: MemWrite checks alignment, then bounds, and writes the n bytes little-endian and no other byte. -/
def Obligations.MemWriteRule : Prop :=
  ∀ (s : State) (addr : Word) (n : Nat) (v : BitVec (8 * n)), n = 1 ∨ n = 2 ∨ n = 4 →
    (addr.toNat % n ≠ 0 → memWrite s addr n v = .error (.misaligned .store addr)) ∧
      (addr.toNat % n = 0 → addr.toNat + n > s.config.memSize →
        memWrite s addr n v = .error (.outOfBounds .store addr)) ∧
      (addr.toNat % n = 0 → addr.toNat + n ≤ s.config.memSize →
        ∃ m, memWrite s addr n v = .ok m ∧
          (∀ i : Nat, i < n → Memory.byte m (addr.toNat + i) = v.extractLsb' (8 * i) 8) ∧
          ∀ a : Nat, a < addr.toNat ∨ addr.toNat + n ≤ a → Memory.byte m a = Memory.byte s.mem a)

/-- R50: after a word is written, the byte and halfword reads inside it give its parts. -/
def Obligations.MixedWidthReads : Prop :=
  ∀ (s : State) (addr : Word) (m : Memory) (b3 b2 b1 b0 : Byte),
    memWrite s addr 4 (b3 ++ b2 ++ b1 ++ b0) = .ok m →
      memRead (s.setMem m) addr 1 = .ok b0 ∧ memRead (s.setMem m) (addr + 1#32) 1 = .ok b1 ∧
        memRead (s.setMem m) (addr + 2#32) 1 = .ok b2 ∧ memRead (s.setMem m) (addr + 3#32) 1 = .ok b3 ∧
        memRead (s.setMem m) addr 2 = .ok (b1 ++ b0) ∧
        memRead (s.setMem m) (addr + 2#32) 2 = .ok (b3 ++ b2) ∧
        memRead (s.setMem m) addr 4 = .ok (b3 ++ b2 ++ b1 ++ b0)

/-- The model's own representation (log 7): two memories in canonical form that read the same at every address are the
same data. -/
def Obligations.CanonicalMemoryIsDetermined : Prop :=
  ∀ m m' : Memory, Memory.Wf m → Memory.Wf m' → (∀ a, Memory.byte m a = Memory.byte m' a) → m = m'

/-- R48 (decisions D5, D6): fetch is bounded by image_end, asks for a word-aligned address, raises OutOfBounds
otherwise, and reads the word from memory, little-endian. -/
def Obligations.FetchRule : Prop :=
  ∀ (s : State) (addr : Word),
    (addr.toNat ≥ 4 * s.image.length ∨ addr.toNat % 4 ≠ 0 → fetch s addr = .error (.outOfBounds .fetch addr)) ∧
      (addr.toNat < 4 * s.image.length → addr.toNat % 4 = 0 →
        fetch s addr = .ok (Memory.byte s.mem (addr.toNat + 3) ++ Memory.byte s.mem (addr.toNat + 2) ++
          Memory.byte s.mem (addr.toNat + 1) ++ Memory.byte s.mem addr.toNat))

/-- R56 (decision D5): a word stored into the text region is what the next fetch of that address returns, whatever
instruction the pc is at. -/
def Obligations.StoreIntoTextIsFetched : Prop :=
  ∀ (s : State) (addr v : Word) (m : Memory), memWrite s addr 4 v = .ok m → addr.toNat < s.imageEnd →
    fetch (s.setMem m) addr = .ok v

/-! ## The step -/

/-- R246: while a run goes on and the step bound is not reached, the step at a pc inside the image whose bytes decode to
an instruction is that instruction's meaning at that state. -/
def Obligations.StepRunsTheDecodedInstruction : Prop :=
  ∀ (s : State) (i : Instr), s.status = .running → s.steps < s.config.maxSteps → s.pc.toNat < s.imageEnd →
    s.pc.toNat % 4 = 0 →
    decode (Memory.byte s.mem (s.pc.toNat + 3) ++ Memory.byte s.mem (s.pc.toNat + 2) ++
      Memory.byte s.mem (s.pc.toNat + 1) ++ Memory.byte s.mem s.pc.toNat) = .ok i →
    step s = exec i s

/-- R201, R203, R206 (decision D19 for the pc): a fetch outside the image traps OutOfBounds(fetch, pc), and a fetched
word with no decoding traps IllegalInstruction. -/
def Obligations.FetchAndDecodeTrap : Prop :=
  ∀ s : State, s.status = .running → s.steps < s.config.maxSteps →
    (s.pc.toNat ≥ s.imageEnd ∨ s.pc.toNat % 4 ≠ 0 →
      ∃ t, step s = .next t ∧ Trapped (.outOfBounds .fetch s.pc) s t) ∧
    ∀ w : Word, fetch s s.pc = .ok w → (∀ row ∈ opcodeRows, ¬row.Matches w) →
      ∃ t, step s = .next t ∧ Trapped (.illegalInstruction w) s t

/-- R210 (decision D14): at the step bound the run halts before anything is fetched, with one log entry. -/
def Obligations.StepLimitRule : Prop :=
  ∀ s : State, s.status = .running → s.config.maxSteps ≤ s.steps →
    ∃ t, step s = .next t ∧ t.status = .halted .stepLimitExceeded ∧ t.log = s.log ++ [.stepLimit s.pc] ∧
      t.pc = s.pc ∧ t.steps = s.steps ∧ SameRegs s t ∧ SameBytes s t ∧ SameOutside s t

/-- R22, R253 and log 9, log 12, log 13: a step has no next state only when the hart does not run and the host either
has no call to make, or calls assemble with a directive or with an image larger than memory. -/
def Obligations.WhereAStepStops : Prop :=
  ∀ s : State,
    (∀ f, step s = .fault f ↔ s.status ≠ .running ∧ s.calls = []) ∧
      ∀ r, step s = .refused r →
        s.status ≠ .running ∧ ∃ text cs, s.calls = .assemble text :: cs ∧
          ((∃ line, r = .directive line ∧ assembleText text = .error (.directive line)) ∨
            ∃ ws, r = .imageTooLarge ∧ assembleText text = .ok ws ∧ s.config.memSize < 4 * ws.length)

/-- R246: "One step is atomic and has exactly one of three outcomes: retire, halt, trap"; for every instruction and
every state, with what each of the three leaves unchanged (R206, R207, R209). -/
def Obligations.RetireHaltOrTrap : Prop :=
  ∀ (i : Instr) (s : State), ∃ t, exec i s = .next t ∧
    ((∃ target, RetiredTo target s t) ∨ (∃ r, HaltedFor r s t) ∨ ∃ c, Trapped c s t)

/-- R16: "Only JAL, JALR and taken conditional branches assign a target; every other retiring instruction gives pc + 4";
an instruction that traps or halts leaves pc unchanged. -/
def Obligations.WhereThePcGoes : Prop :=
  ∀ (i : Instr) (s t : State), exec i s = .next t →
    (t.steps = s.steps → t.pc = s.pc) ∧
      (t.steps = s.steps + 1 → t.pc ≠ s.pc + 4#32 → transferTarget i s = some t.pc ∧ t.pc.toNat % 4 = 0)

/-- R18, R110, R130, R170: the frame of every instruction. Registers other than its rd field read as before; every byte
of memory outside the bytes a store writes reads as before, all of it for an instruction that is no store; IMAGE, the
parameters and the host's side are as before. -/
def Obligations.InstructionFrame : Prop :=
  ∀ (i : Instr) (s t : State), exec i s = .next t →
    (∀ r : Reg, destination i ≠ some r → t.x r = s.x r) ∧
      (storeRange i s = none → SameBytes s t) ∧
      (∀ a n, storeRange i s = some (a, n) → ∀ b : Nat, b < a ∨ a + n ≤ b → Memory.byte t.mem b = Memory.byte s.mem b) ∧
      SameOutside s t

/-! ## Integer register-immediate -/

/-- R111: ADDI. -/
def Obligations.AddImmediateRule : Prop :=
  ∀ (s : State) (rd rs1 : Reg) (imm : BitVec 12),
    decode (imm ++ rs1 ++ 0b000#3 ++ rd ++ 0b0010011#7) = .ok (.addi rd rs1 imm) ∧
      ∃ v : Word, (v.toNat : Int) = ((s.x rs1).toNat + imm.toInt) % 2 ^ 32 ∧ Writes (.addi rd rs1 imm) rd v s

/-- R112, R113: SLTI compares as signed numbers; SLTIU compares with the sign-extended immediate as an unsigned
number. -/
def Obligations.SetLessThanImmediateRule : Prop :=
  ∀ (s : State) (rd rs1 : Reg) (imm : BitVec 12),
    decode (imm ++ rs1 ++ 0b010#3 ++ rd ++ 0b0010011#7) = .ok (.slti rd rs1 imm) ∧
      decode (imm ++ rs1 ++ 0b011#3 ++ rd ++ 0b0010011#7) = .ok (.sltiu rd rs1 imm) ∧
      Writes (.slti rd rs1 imm) rd (if (s.x rs1).toInt < imm.toInt then 1#32 else 0#32) s ∧
      Writes (.sltiu rd rs1 imm) rd (if ((s.x rs1).toNat : Int) < imm.toInt % 2 ^ 32 then 1#32 else 0#32) s

/-- R114 to R116: XORI, ORI, ANDI, bit by bit with the sign-extended immediate, whose bits 31..11 are its bit 11. -/
def Obligations.BitwiseImmediateRule : Prop :=
  ∀ (s : State) (rd rs1 : Reg) (imm : BitVec 12),
    decode (imm ++ rs1 ++ 0b100#3 ++ rd ++ 0b0010011#7) = .ok (.xori rd rs1 imm) ∧
      decode (imm ++ rs1 ++ 0b110#3 ++ rd ++ 0b0010011#7) = .ok (.ori rd rs1 imm) ∧
      decode (imm ++ rs1 ++ 0b111#3 ++ rd ++ 0b0010011#7) = .ok (.andi rd rs1 imm) ∧
      ∃ vx vo va : Word,
        (∀ k : Nat, k < 32 → vx.getLsbD k = ((s.x rs1).getLsbD k ^^ imm.getLsbD (min k 11)) ∧
          vo.getLsbD k = ((s.x rs1).getLsbD k || imm.getLsbD (min k 11)) ∧
          va.getLsbD k = ((s.x rs1).getLsbD k && imm.getLsbD (min k 11))) ∧
        Writes (.xori rd rs1 imm) rd vx s ∧ Writes (.ori rd rs1 imm) rd vo s ∧ Writes (.andi rd rs1 imm) rd va s

/-- R117 to R119: SLLI, SRLI and SRAI as arithmetic on the source, "floor(signed(x[rs1]) / 2^shamt)" for SRAI, and the
reserved values of inst[31:25], which are illegal. -/
def Obligations.ShiftImmediateRule : Prop :=
  ∀ (s : State) (rd rs1 : Reg) (shamt : BitVec 5) (f7 : BitVec 7),
    decode (0b0000000#7 ++ shamt ++ rs1 ++ 0b001#3 ++ rd ++ 0b0010011#7) = .ok (.slli rd rs1 shamt) ∧
      decode (0b0000000#7 ++ shamt ++ rs1 ++ 0b101#3 ++ rd ++ 0b0010011#7) = .ok (.srli rd rs1 shamt) ∧
      decode (0b0100000#7 ++ shamt ++ rs1 ++ 0b101#3 ++ rd ++ 0b0010011#7) = .ok (.srai rd rs1 shamt) ∧
      (f7 ≠ 0b0000000#7 →
        decode (f7 ++ shamt ++ rs1 ++ 0b001#3 ++ rd ++ 0b0010011#7) = .error .shiftFunct7) ∧
      (f7 ≠ 0b0000000#7 → f7 ≠ 0b0100000#7 →
        decode (f7 ++ shamt ++ rs1 ++ 0b101#3 ++ rd ++ 0b0010011#7) = .error .shiftFunct7) ∧
      ∃ vl vr va : Word,
        vl.toNat = (s.x rs1).toNat * 2 ^ shamt.toNat % 2 ^ 32 ∧ vr.toNat = (s.x rs1).toNat / 2 ^ shamt.toNat ∧
          va.toInt = (s.x rs1).toInt / 2 ^ shamt.toNat ∧
        Writes (.slli rd rs1 shamt) rd vl s ∧ Writes (.srli rd rs1 shamt) rd vr s ∧ Writes (.srai rd rs1 shamt) rd va s

/-- R120, R121: LUI writes imm20 * 2^12, AUIPC adds it to the instruction's own address modulo 2^32. -/
def Obligations.UpperImmediateRule : Prop :=
  ∀ (s : State) (rd : Reg) (imm : BitVec 20),
    decode (imm ++ rd ++ 0b0110111#7) = .ok (.lui rd imm) ∧
      decode (imm ++ rd ++ 0b0010111#7) = .ok (.auipc rd imm) ∧
      ∃ vl va : Word,
        vl.toNat = imm.toNat * 2 ^ 12 ∧ va.toNat = (s.pc.toNat + imm.toNat * 2 ^ 12) % 2 ^ 32 ∧
          Writes (.lui rd imm) rd vl s ∧ Writes (.auipc rd imm) rd va s

/-! ## Integer register-register -/

/-- R131, R132: ADD and SUB modulo 2^32. -/
def Obligations.AddSubRule : Prop :=
  ∀ (s : State) (rd rs1 rs2 : Reg),
    decode (0b0000000#7 ++ rs2 ++ rs1 ++ 0b000#3 ++ rd ++ 0b0110011#7) = .ok (.add rd rs1 rs2) ∧
      decode (0b0100000#7 ++ rs2 ++ rs1 ++ 0b000#3 ++ rd ++ 0b0110011#7) = .ok (.sub rd rs1 rs2) ∧
      ∃ va vs : Word,
        va.toNat = ((s.x rs1).toNat + (s.x rs2).toNat) % 2 ^ 32 ∧
          (vs.toNat : Int) = ((s.x rs1).toNat - (s.x rs2).toNat : Int) % 2 ^ 32 ∧
          Writes (.add rd rs1 rs2) rd va s ∧ Writes (.sub rd rs1 rs2) rd vs s

/-- R133, R137, R138: SLL, SRL, SRA shift by the low 5 bits of x[rs2]. -/
def Obligations.ShiftRegisterRule : Prop :=
  ∀ (s : State) (rd rs1 rs2 : Reg),
    decode (0b0000000#7 ++ rs2 ++ rs1 ++ 0b001#3 ++ rd ++ 0b0110011#7) = .ok (.sll rd rs1 rs2) ∧
      decode (0b0000000#7 ++ rs2 ++ rs1 ++ 0b101#3 ++ rd ++ 0b0110011#7) = .ok (.srl rd rs1 rs2) ∧
      decode (0b0100000#7 ++ rs2 ++ rs1 ++ 0b101#3 ++ rd ++ 0b0110011#7) = .ok (.sra rd rs1 rs2) ∧
      ∃ vl vr va : Word,
        vl.toNat = (s.x rs1).toNat * 2 ^ ((s.x rs2).toNat % 32) % 2 ^ 32 ∧
          vr.toNat = (s.x rs1).toNat / 2 ^ ((s.x rs2).toNat % 32) ∧
          va.toInt = (s.x rs1).toInt / 2 ^ ((s.x rs2).toNat % 32) ∧
          Writes (.sll rd rs1 rs2) rd vl s ∧ Writes (.srl rd rs1 rs2) rd vr s ∧ Writes (.sra rd rs1 rs2) rd va s

/-- R134, R135: SLT compares as signed, SLTU as unsigned numbers. -/
def Obligations.SetLessThanRule : Prop :=
  ∀ (s : State) (rd rs1 rs2 : Reg),
    decode (0b0000000#7 ++ rs2 ++ rs1 ++ 0b010#3 ++ rd ++ 0b0110011#7) = .ok (.slt rd rs1 rs2) ∧
      decode (0b0000000#7 ++ rs2 ++ rs1 ++ 0b011#3 ++ rd ++ 0b0110011#7) = .ok (.sltu rd rs1 rs2) ∧
      Writes (.slt rd rs1 rs2) rd (if (s.x rs1).toInt < (s.x rs2).toInt then 1#32 else 0#32) s ∧
      Writes (.sltu rd rs1 rs2) rd (if (s.x rs1).toNat < (s.x rs2).toNat then 1#32 else 0#32) s

/-- R136, R139, R140: XOR, OR, AND, bit by bit. -/
def Obligations.BitwiseRegisterRule : Prop :=
  ∀ (s : State) (rd rs1 rs2 : Reg),
    decode (0b0000000#7 ++ rs2 ++ rs1 ++ 0b100#3 ++ rd ++ 0b0110011#7) = .ok (.xor rd rs1 rs2) ∧
      decode (0b0000000#7 ++ rs2 ++ rs1 ++ 0b110#3 ++ rd ++ 0b0110011#7) = .ok (.or rd rs1 rs2) ∧
      decode (0b0000000#7 ++ rs2 ++ rs1 ++ 0b111#3 ++ rd ++ 0b0110011#7) = .ok (.and rd rs1 rs2) ∧
      ∃ vx vo va : Word,
        (∀ k : Nat, k < 32 → vx.getLsbD k = ((s.x rs1).getLsbD k ^^ (s.x rs2).getLsbD k) ∧
          vo.getLsbD k = ((s.x rs1).getLsbD k || (s.x rs2).getLsbD k) ∧
          va.getLsbD k = ((s.x rs1).getLsbD k && (s.x rs2).getLsbD k)) ∧
        Writes (.xor rd rs1 rs2) rd vx s ∧ Writes (.or rd rs1 rs2) rd vo s ∧ Writes (.and rd rs1 rs2) rd va s

/-! ## Control transfer -/

/-- R151: JAL, with the trap on a target that is no multiple of 4. -/
def Obligations.JalRule : Prop :=
  ∀ (s : State) (rd : Reg) (b20 : BitVec 1) (b10 : BitVec 10) (b11 : BitVec 1) (b19 : BitVec 8),
    decode (b20 ++ b10 ++ b11 ++ b19 ++ rd ++ 0b1101111#7) = .ok (.jal rd (b20 ++ b19 ++ b11 ++ b10 ++ 0#1)) ∧
      ∀ (off : BitVec 21) (target : Word), (target.toNat : Int) = (s.pc.toNat + off.toInt) % 2 ^ 32 →
        (target.toNat % 4 = 0 → LinksTo (.jal rd off) rd target s) ∧
          (target.toNat % 4 ≠ 0 → Traps (.jal rd off) (.misaligned .jump target) s)

/-- R152: JALR, whose target is the sum with bit 0 cleared, and its illegal funct3 values. -/
def Obligations.JalrRule : Prop :=
  ∀ (s : State) (rd rs1 : Reg) (imm : BitVec 12) (f3 : BitVec 3) (target : Word),
    decode (imm ++ rs1 ++ 0b000#3 ++ rd ++ 0b1100111#7) = .ok (.jalr rd rs1 imm) ∧
      (f3 ≠ 0b000#3 → decode (imm ++ rs1 ++ f3 ++ rd ++ 0b1100111#7) = .error .jalrFunct3) ∧
      ((target.toNat : Int) = ((s.x rs1).toNat + imm.toInt) % 2 ^ 32 / 2 * 2 →
        (target.toNat % 4 = 0 → LinksTo (.jalr rd rs1 imm) rd target s) ∧
          (target.toNat % 4 ≠ 0 → Traps (.jalr rd rs1 imm) (.misaligned .jump target) s))

/-- R153, R154: BEQ and BNE. -/
def Obligations.BranchEqualRule : Prop :=
  ∀ (s : State) (rs1 rs2 : Reg) (b12 : BitVec 1) (b10 : BitVec 6) (b4 : BitVec 4) (b11 : BitVec 1),
    decode (b12 ++ b10 ++ rs2 ++ rs1 ++ 0b000#3 ++ b4 ++ b11 ++ 0b1100011#7) =
        .ok (.beq rs1 rs2 (b12 ++ b11 ++ b10 ++ b4 ++ 0#1)) ∧
      decode (b12 ++ b10 ++ rs2 ++ rs1 ++ 0b001#3 ++ b4 ++ b11 ++ 0b1100011#7) =
        .ok (.bne rs1 rs2 (b12 ++ b11 ++ b10 ++ b4 ++ 0#1)) ∧
      ∀ (off : BitVec 13) (target : Word), (target.toNat : Int) = (s.pc.toNat + off.toInt) % 2 ^ 32 →
        BranchesOn (.beq rs1 rs2 off) (s.x rs1 = s.x rs2) target s ∧
          BranchesOn (.bne rs1 rs2 off) (s.x rs1 ≠ s.x rs2) target s

/-- R155, R156: BLT and BGE, signed. -/
def Obligations.BranchSignedRule : Prop :=
  ∀ (s : State) (rs1 rs2 : Reg) (b12 : BitVec 1) (b10 : BitVec 6) (b4 : BitVec 4) (b11 : BitVec 1),
    decode (b12 ++ b10 ++ rs2 ++ rs1 ++ 0b100#3 ++ b4 ++ b11 ++ 0b1100011#7) =
        .ok (.blt rs1 rs2 (b12 ++ b11 ++ b10 ++ b4 ++ 0#1)) ∧
      decode (b12 ++ b10 ++ rs2 ++ rs1 ++ 0b101#3 ++ b4 ++ b11 ++ 0b1100011#7) =
        .ok (.bge rs1 rs2 (b12 ++ b11 ++ b10 ++ b4 ++ 0#1)) ∧
      ∀ (off : BitVec 13) (target : Word), (target.toNat : Int) = (s.pc.toNat + off.toInt) % 2 ^ 32 →
        BranchesOn (.blt rs1 rs2 off) ((s.x rs1).toInt < (s.x rs2).toInt) target s ∧
          BranchesOn (.bge rs1 rs2 off) ((s.x rs2).toInt ≤ (s.x rs1).toInt) target s

/-- R157, R158: BLTU and BGEU, unsigned. -/
def Obligations.BranchUnsignedRule : Prop :=
  ∀ (s : State) (rs1 rs2 : Reg) (b12 : BitVec 1) (b10 : BitVec 6) (b4 : BitVec 4) (b11 : BitVec 1),
    decode (b12 ++ b10 ++ rs2 ++ rs1 ++ 0b110#3 ++ b4 ++ b11 ++ 0b1100011#7) =
        .ok (.bltu rs1 rs2 (b12 ++ b11 ++ b10 ++ b4 ++ 0#1)) ∧
      decode (b12 ++ b10 ++ rs2 ++ rs1 ++ 0b111#3 ++ b4 ++ b11 ++ 0b1100011#7) =
        .ok (.bgeu rs1 rs2 (b12 ++ b11 ++ b10 ++ b4 ++ 0#1)) ∧
      ∀ (off : BitVec 13) (target : Word), (target.toNat : Int) = (s.pc.toNat + off.toInt) % 2 ^ 32 →
        BranchesOn (.bltu rs1 rs2 off) ((s.x rs1).toNat < (s.x rs2).toNat) target s ∧
          BranchesOn (.bgeu rs1 rs2 off) ((s.x rs2).toNat ≤ (s.x rs1).toNat) target s

/-! ## Loads and stores -/

/-- R170 a: the effective address is x[rs1] plus the signed 12-bit immediate, modulo 2^32. -/
def Obligations.EffectiveAddressWraps : Prop :=
  ∀ (s : State) (rs1 : Reg) (imm : BitVec 12),
    ((effectiveAddress s rs1 imm).toNat : Int) = ((s.x rs1).toNat + imm.toInt) % 2 ^ 32

/-- R171, R174: LB and LBU, never misaligned. -/
def Obligations.LoadByteRule : Prop :=
  ∀ (s : State) (rd rs1 : Reg) (imm : BitVec 12) (ea : Word), ea = effectiveAddress s rs1 imm →
    decode (imm ++ rs1 ++ 0b000#3 ++ rd ++ 0b0000011#7) = .ok (.lb rd rs1 imm) ∧
      decode (imm ++ rs1 ++ 0b100#3 ++ rd ++ 0b0000011#7) = .ok (.lbu rd rs1 imm) ∧
      (ea.toNat < s.config.memSize →
        ∃ vs vu : Word,
          vs.toInt = (Memory.byte s.mem ea.toNat).toInt ∧ vu.toNat = (Memory.byte s.mem ea.toNat).toNat ∧
            Writes (.lb rd rs1 imm) rd vs s ∧ Writes (.lbu rd rs1 imm) rd vu s) ∧
      (s.config.memSize ≤ ea.toNat →
        Traps (.lb rd rs1 imm) (.outOfBounds .load ea) s ∧ Traps (.lbu rd rs1 imm) (.outOfBounds .load ea) s)

/-- R172, R175: LH and LHU; alignment is checked before bounds. -/
def Obligations.LoadHalfRule : Prop :=
  ∀ (s : State) (rd rs1 : Reg) (imm : BitVec 12) (ea : Word), ea = effectiveAddress s rs1 imm →
    decode (imm ++ rs1 ++ 0b001#3 ++ rd ++ 0b0000011#7) = .ok (.lh rd rs1 imm) ∧
      decode (imm ++ rs1 ++ 0b101#3 ++ rd ++ 0b0000011#7) = .ok (.lhu rd rs1 imm) ∧
      (ea.toNat % 2 = 0 → ea.toNat + 2 ≤ s.config.memSize →
        ∃ vs vu : Word,
          vs.toInt = (Memory.byte s.mem (ea.toNat + 1) ++ Memory.byte s.mem ea.toNat).toInt ∧
            vu.toNat = (Memory.byte s.mem (ea.toNat + 1) ++ Memory.byte s.mem ea.toNat).toNat ∧
            Writes (.lh rd rs1 imm) rd vs s ∧ Writes (.lhu rd rs1 imm) rd vu s) ∧
      (ea.toNat % 2 ≠ 0 →
        Traps (.lh rd rs1 imm) (.misaligned .load ea) s ∧ Traps (.lhu rd rs1 imm) (.misaligned .load ea) s) ∧
      (ea.toNat % 2 = 0 → s.config.memSize < ea.toNat + 2 →
        Traps (.lh rd rs1 imm) (.outOfBounds .load ea) s ∧ Traps (.lhu rd rs1 imm) (.outOfBounds .load ea) s)

/-- R173: LW; alignment is checked before bounds. -/
def Obligations.LoadWordRule : Prop :=
  ∀ (s : State) (rd rs1 : Reg) (imm : BitVec 12) (ea : Word), ea = effectiveAddress s rs1 imm →
    decode (imm ++ rs1 ++ 0b010#3 ++ rd ++ 0b0000011#7) = .ok (.lw rd rs1 imm) ∧
      (ea.toNat % 4 = 0 → ea.toNat + 4 ≤ s.config.memSize →
        Writes (.lw rd rs1 imm) rd (Memory.byte s.mem (ea.toNat + 3) ++ Memory.byte s.mem (ea.toNat + 2) ++
          Memory.byte s.mem (ea.toNat + 1) ++ Memory.byte s.mem ea.toNat) s) ∧
      (ea.toNat % 4 ≠ 0 → Traps (.lw rd rs1 imm) (.misaligned .load ea) s) ∧
      (ea.toNat % 4 = 0 → s.config.memSize < ea.toNat + 4 → Traps (.lw rd rs1 imm) (.outOfBounds .load ea) s)

/-- R176: SB, never misaligned; the stored byte is at the address the meaning computes. -/
def Obligations.StoreByteRule : Prop :=
  ∀ (s : State) (rs1 rs2 : Reg) (hi : BitVec 7) (lo : BitVec 5) (imm : BitVec 12) (ea : Word),
    decode (hi ++ rs2 ++ rs1 ++ 0b000#3 ++ lo ++ 0b0100011#7) = .ok (.sb rs2 rs1 (hi ++ lo)) ∧
      (ea = effectiveAddress s rs1 imm →
        (ea.toNat < s.config.memSize → Stores (.sb rs2 rs1 imm) ea.toNat 1 (s.x rs2) s) ∧
          (s.config.memSize ≤ ea.toNat → Traps (.sb rs2 rs1 imm) (.outOfBounds .store ea) s))

/-- R177: SH; alignment is checked before bounds. -/
def Obligations.StoreHalfRule : Prop :=
  ∀ (s : State) (rs1 rs2 : Reg) (hi : BitVec 7) (lo : BitVec 5) (imm : BitVec 12) (ea : Word),
    decode (hi ++ rs2 ++ rs1 ++ 0b001#3 ++ lo ++ 0b0100011#7) = .ok (.sh rs2 rs1 (hi ++ lo)) ∧
      (ea = effectiveAddress s rs1 imm →
        (ea.toNat % 2 = 0 → ea.toNat + 2 ≤ s.config.memSize → Stores (.sh rs2 rs1 imm) ea.toNat 2 (s.x rs2) s) ∧
          (ea.toNat % 2 ≠ 0 → Traps (.sh rs2 rs1 imm) (.misaligned .store ea) s) ∧
          (ea.toNat % 2 = 0 → s.config.memSize < ea.toNat + 2 →
            Traps (.sh rs2 rs1 imm) (.outOfBounds .store ea) s))

/-- R178: SW; alignment is checked before bounds. -/
def Obligations.StoreWordRule : Prop :=
  ∀ (s : State) (rs1 rs2 : Reg) (hi : BitVec 7) (lo : BitVec 5) (imm : BitVec 12) (ea : Word),
    decode (hi ++ rs2 ++ rs1 ++ 0b010#3 ++ lo ++ 0b0100011#7) = .ok (.sw rs2 rs1 (hi ++ lo)) ∧
      (ea = effectiveAddress s rs1 imm →
        (ea.toNat % 4 = 0 → ea.toNat + 4 ≤ s.config.memSize → Stores (.sw rs2 rs1 imm) ea.toNat 4 (s.x rs2) s) ∧
          (ea.toNat % 4 ≠ 0 → Traps (.sw rs2 rs1 imm) (.misaligned .store ea) s) ∧
          (ea.toNat % 4 = 0 → s.config.memSize < ea.toNat + 4 →
            Traps (.sw rs2 rs1 imm) (.outOfBounds .store ea) s))

/-! ## FENCE, ECALL, EBREAK -/

/-- R78, R190 (decision D13): every word with opcode 0001111 and funct3 000 is a FENCE, whatever its other fields, and
it changes nothing but pc and steps. -/
def Obligations.FenceRule : Prop :=
  ∀ (s : State) (fm pred succ : BitVec 4) (rs1 rd : Reg),
    decode (fm ++ pred ++ succ ++ rs1 ++ 0b000#3 ++ rd ++ 0b0001111#7) = .ok (.fence fm pred succ rs1 rd) ∧
      GoesTo (.fence fm pred succ rs1 rd) (s.pc + 4#32) s

/-- R195, R196, R209 (decisions D9, D10): ECALL and EBREAK halt the run, whatever the registers hold, and change only
status. -/
def Obligations.VoluntaryHaltRule : Prop :=
  ∀ s : State,
    (∃ t, exec .ecall s = .next t ∧ HaltedFor .exit s t) ∧ ∃ t, exec .ebreak s = .next t ∧ HaltedFor .breakpoint s t

/-! ## The host's calls -/

/-- R240 (decision D11 for registers, pc and steps; log 5, log 10): construct State. -/
def Obligations.ConstructResets : Prop :=
  ∀ (s : State) (cs : List HostCall), s.status ≠ .running → s.calls = .construct :: cs →
    ∃ t, step s = .next t ∧ t.status = .uninitialized ∧ (∀ a, Memory.byte t.mem a = 0#8) ∧ t.image = [] ∧
      t.imageEnd = 0 ∧ (∀ r, t.x r = 0#32) ∧ t.pc = 0#32 ∧ t.steps = 0 ∧ t.log = s.log ∧ t.config = s.config ∧
      t.calls = cs ∧ t.replies = s.replies

/-- R242 (decisions D3, D4, D12): a successful assemble reloads everything. The model's own choices: it adds no entry to
the log (log 15) and gives the host no reply (log 22). -/
def Obligations.AssembleLoadsTheImage : Prop :=
  ∀ (s : State) (text : List Char) (cs : List HostCall) (ws : List Word), s.status ≠ .running →
    s.calls = .assemble text :: cs → assembleText text = .ok ws → 4 * ws.length ≤ s.config.memSize →
    ∃ t, step s = .next t ∧ t.status = .assembled ∧ t.image = ws ∧ t.imageEnd = 4 * ws.length ∧
      (∀ (k j : Nat) (w : Word), ws[k]? = some w → j < 4 → Memory.byte t.mem (4 * k + j) = w.extractLsb' (8 * j) 8) ∧
      (∀ a, 4 * ws.length ≤ a → Memory.byte t.mem a = 0#8) ∧ (∀ r, t.x r = 0#32) ∧ t.pc = 0#32 ∧ t.steps = 0 ∧
      t.log = s.log ∧ t.config = s.config ∧ t.calls = cs ∧ t.replies = s.replies

/-- R243: "No field of the State changes: not status, IMAGE, mem, x or pc. Only the log grows". The model's own choices:
the log grows by exactly one entry, the error (log 15), and the host is told the error in a reply (log 22). -/
def Obligations.FailedAssembleChangesNothing : Prop :=
  ∀ (s : State) (text : List Char) (cs : List HostCall) (e : AsmError), s.status ≠ .running →
    s.calls = .assemble text :: cs → assembleText text = .error (.failed e) →
    ∃ t, step s = .next t ∧ t.log = s.log ++ [.assembly e] ∧ t.replies = s.replies ++ [.assemblyFailed e] ∧
      t.status = s.status ∧ t.image = s.image ∧ t.mem = s.mem ∧ t.xregs = s.xregs ∧ t.pc = s.pc ∧ t.steps = s.steps ∧
      t.config = s.config ∧ t.calls = cs

/-- R94, R87: every word of a successful assembly is the encoding of a well-formed instruction and decodes to it. -/
def Obligations.AssembledWordsAreInstructions : Prop :=
  ∀ (text : List Char) (ws : List Word), assembleText text = .ok ws →
    ∀ w ∈ ws, ∃ i : Instr, i.wellFormed = true ∧ encode i = w ∧ decode w = .ok i

/-- R94: an assembly that succeeds gives exactly one word for every line with an instruction; and a line with a
reference to a label never defined makes it fail with UndefinedSymbolError, whatever register names and values the parsed
lines hold. The model's own choices: which of several errors is reported (log 18), which operand lists are malformed and
so do not parse (log 19), and that a name in a target's place is a label also when it spells a register (log 17). -/
def Obligations.OneWordPerInstructionLine : Prop :=
  ∀ (text : List Char) (sts : List Stmt), parseLines 1 (splitLines (unescape text)) = .ok sts →
    (∀ ws : List Word, assembleText text = .ok ws → ws.length = (sts.filter fun st => st.instr.isSome).length) ∧
      ∀ (t : LabelTable) (st : Stmt) (l : List Char), labelPass 0 sts [] = .ok t → st ∈ sts → st.reference = some l →
        (∀ st' ∈ sts, st'.label ≠ some l) → ∃ line, assembleText text = .error (.failed (.undefinedSymbol line))

/-- R97, R98 (decisions D22, D26): the range of every numeric operand; a value in range is encoded as itself, another
fails with ImmediateRangeError or, for a displacement that is odd or too far, OffsetRangeError. -/
def Obligations.OperandRangesRule : Prop :=
  ∀ (line : Nat) (v : Int),
    (if -2048 ≤ v ∧ v ≤ 2047 then ∃ b, imm12Of line v = .ok b ∧ b.toInt = v
      else imm12Of line v = .error (.failed (.immediateRange line))) ∧
    (if 0 ≤ v ∧ v ≤ 31 then ∃ b, shamtOf line v = .ok b ∧ (b.toNat : Int) = v
      else shamtOf line v = .error (.failed (.immediateRange line))) ∧
    (if 0 ≤ v ∧ v ≤ 0xFFFFF then ∃ b, imm20Of line v = .ok b ∧ (b.toNat : Int) = v
      else imm20Of line v = .error (.failed (.immediateRange line))) ∧
    (if v % 2 = 0 ∧ -4096 ≤ v ∧ v ≤ 4094 then ∃ b, off13Of line v = .ok b ∧ b.toInt = v
      else off13Of line v = .error (.failed (.offsetRange line))) ∧
    (if v % 2 = 0 ∧ -1048576 ≤ v ∧ v ≤ 1048574 then ∃ b, off21Of line v = .ok b ∧ b.toInt = v
      else off21Of line v = .error (.failed (.offsetRange line)))

/-- R244 (decision D15): run() starts a run in Assembled and Halted(r), with registers and memory kept, and fails with
InvalidStateError and no change in Uninitialized and Trapped(c). -/
def Obligations.RunStartsOrFails : Prop :=
  ∀ (s : State) (cs : List HostCall), s.calls = .run :: cs →
    ((s.status = .assembled ∨ ∃ r, s.status = .halted r) →
      ∃ t, step s = .next t ∧ t.status = .running ∧ t.pc = 0#32 ∧ t.steps = 0 ∧ SameRegs s t ∧ SameBytes s t ∧
        t.image = s.image ∧ t.log = s.log ∧ t.config = s.config ∧ t.calls = cs ∧ t.replies = s.replies) ∧
    ((s.status = .uninitialized ∨ ∃ c, s.status = .trapped c) →
      step s = .next { s with calls := cs, replies := s.replies ++ [.invalidState] })

/-- R248, R32 (decision D27): get_state() gives status, pc and the 32 registers in index order, and changes nothing. -/
def Obligations.GetStateReports : Prop :=
  ∀ (s : State) (cs : List HostCall), s.status ≠ .running → s.calls = .getState :: cs →
    ∃ regs : List Word, regs.length = 32 ∧ (∀ r : Reg, regs[r.toNat]? = some (s.x r)) ∧
      step s = .next { s with calls := cs, replies := s.replies ++ [.dump s.status s.pc regs] }

/-- R249, R102 (decision D5): get_text() lists IMAGE, one line per word with its address, the word and its disassembly,
and changes nothing. The spacing of the disassembly, and an empty listing rather than an absent one before any successful
assemble, are the model's own choices (log 16). -/
def Obligations.GetTextListsTheImage : Prop :=
  ∀ (s : State) (cs : List HostCall), s.status ≠ .running → s.calls = .getText :: cs →
    ∃ lines : List ListingLine, lines.length = s.image.length ∧
      (∀ (k : Nat) (w : Word), s.image[k]? = some w →
        ∃ l, lines[k]? = some l ∧ l.address = 4 * k ∧ l.word = w ∧
          ∀ i, decode w = .ok i → l.instr = some i ∧ l.form = disassemble i) ∧
      step s = .next { s with calls := cs, replies := s.replies ++ [.listing lines] }

/-- R250: get_logs() called twice in succession returns the entries the first time and an empty result the second, and
changes nothing but the log. -/
def Obligations.GetLogsDrains : Prop :=
  ∀ (s : State) (cs : List HostCall), s.status ≠ .running → s.calls = .getLogs :: .getLogs :: cs →
    ∃ t, step s = .next t ∧ t = { s with log := [], calls := .getLogs :: cs, replies := s.replies ++ [.logs s.log] } ∧
      step t = .next { s with log := [], calls := cs, replies := s.replies ++ [.logs s.log, .logs []] }

/-! ## The whole machine -/

/-- Right after reset: the values of R240 and R31 (registers, pc and steps by decisions D11 and D14, log 5; the
parameters by log 4), and the invariant. -/
def Obligations.ResetMeetsInvariant : Prop :=
  State.reset.Inv ∧ State.reset.status = .uninitialized ∧ (∀ r, State.reset.x r = 0#32) ∧
    (∀ a, Memory.byte State.reset.mem a = 0#8) ∧ State.reset.image = [] ∧ State.reset.pc = 0#32 ∧ State.reset.steps = 0

/-- Every step keeps the invariant: memory in canonical form and inside the capacity, image_end <= MEM_SIZE, the pc a
multiple of 4 (R17), at most MAX_STEPS steps (R23), and it never changes the parameters (R30). -/
def Obligations.StepKeepsInvariant : Prop :=
  ∀ s t : State, s.Inv → step s = .next t → t.Inv ∧ t.config = s.config

/-- R22: every step changes status as the table of R22 allows, by the agent whose move it is. -/
def Obligations.StatusChangesAreTheTable : Prop :=
  ∀ s t : State, step s = .next t → ∃ m, nextMover s = some m ∧ StatusMove m s.status t.status

/-- R258 (70_reset_and_hazards.md section 2): "Every run() returns": from any running state, at most
MAX_STEPS - steps + 1 steps lead to a state in which status is no longer Running. -/
def Obligations.EveryRunEnds : Prop :=
  ∀ s : State, s.status = .running →
    ∃ (k : Nat) (t : State), k ≤ s.config.maxSteps - s.steps + 1 ∧ Sys2Proof.core.run k s = .next t ∧
      t.status ≠ .running

/-- R26: "no step's behaviour depends on its content": a step of the hart appends the same entries, and does the same
otherwise, whatever the log holds. -/
def Obligations.HartNeverReadsTheLog : Prop :=
  ∀ s t : State, s.status = .running → step s = .next t →
    ∃ added : List LogEntry, t.log = s.log ++ added ∧
      ∀ l : List LogEntry, step (s.withLog l) = .next (t.withLog (l ++ added))

/-- The launch of a word by `State.withFetchWord` (log 20): with legal parameters that allow a step, the next step runs
that word. -/
def Obligations.LaunchedWordRuns : Prop :=
  ∀ (s : State) (w : Word), s.config.Legal → 0 < s.config.maxSteps →
    (∀ i, decode w = .ok i → step (s.withFetchWord 32 w.toNat) = exec i (s.withFetchWord 32 w.toNat)) ∧
      SameRegs s (s.withFetchWord 32 w.toNat)
end

