-- ==== Sys2Proof/Laws/Assembler.lean ====
section
/-! SUPPORT. What the assembler answers is well-formed, and what an image and a listing hold at each place. -/

namespace Sys2Proof.Machine

/-- An operation that answers an instruction has answered its last part. -/
theorem bind_ok {ε α β : Type} {x : Except ε α} {f : α → Except ε β} {b : β}
    (h : (x >>= f) = .ok b) : ∃ a, x = .ok a ∧ f a = .ok b := by
  cases x with
  | error e => cases h
  | ok a => exact ⟨a, rfl, h⟩

/-- The low bit of an even integer is 0. -/
theorem evenOffset_ofInt {n : Nat} {v : Int} (h : v % 2 = 0) : evenOffset (BitVec.ofInt n v) = true := by
  have e : (BitVec.ofInt n v).toNat % 2 = 0 := by
    rw [BitVec.toNat_ofInt]
    cases n with
    | zero => simp
    | succ n =>
      have h2 : (2 : Int) ∣ ((2 ^ (n + 1) : Nat) : Int) := ⟨2 ^ n, by push_cast; ring⟩
      have h3 : v % ((2 ^ (n + 1) : Nat) : Int) % 2 = 0 := by rw [Int.emod_emod_of_dvd v h2, h]
      have h4 : 0 ≤ v % ((2 ^ (n + 1) : Nat) : Int) := Int.emod_nonneg _ (by positivity)
      omega
  rw [evenOffset, BitVec.getLsbD, Nat.testBit_zero, e]
  rfl

theorem off13Of_even {line : Nat} {v : Int} {off : BitVec 13} (h : off13Of line v = .ok off) :
    evenOffset off = true := by
  unfold off13Of at h
  split at h
  · cases h; exact evenOffset_ofInt (by omega)
  · cases h

theorem off21Of_even {line : Nat} {v : Int} {off : BitVec 21} (h : off21Of line v = .ok off) :
    evenOffset off = true := by
  unfold off21Of at h
  split at h
  · cases h; exact evenOffset_ofInt (by omega)
  · cases h

/-! ## Every instruction the assembler builds is well-formed (R94, R98) -/

theorem asmU_wellFormed {k : AsmCtx} {mk : Reg → BitVec 20 → Instr} {os : List Operand} {i : Instr}
    (hm : ∀ a b, (mk a b).wellFormed = true) (h : k.asmU mk os = .ok i) : i.wellFormed = true := by
  unfold AsmCtx.asmU at h
  split at h
  · obtain ⟨rd, -, h⟩ := bind_ok h
    obtain ⟨imm, -, h⟩ := bind_ok h
    cases h; exact hm _ _
  · cases h

theorem asmR_wellFormed {k : AsmCtx} {mk : Reg → Reg → Reg → Instr} {os : List Operand} {i : Instr}
    (hm : ∀ a b c, (mk a b c).wellFormed = true) (h : k.asmR mk os = .ok i) : i.wellFormed = true := by
  unfold AsmCtx.asmR at h
  split at h
  · obtain ⟨rd, -, h⟩ := bind_ok h
    obtain ⟨rs1, -, h⟩ := bind_ok h
    obtain ⟨rs2, -, h⟩ := bind_ok h
    cases h; exact hm _ _ _
  · cases h

theorem asmI_wellFormed {k : AsmCtx} {mk : Reg → Reg → BitVec 12 → Instr} {os : List Operand} {i : Instr}
    (hm : ∀ a b c, (mk a b c).wellFormed = true) (h : k.asmI mk os = .ok i) : i.wellFormed = true := by
  unfold AsmCtx.asmI at h
  split at h
  · obtain ⟨rd, -, h⟩ := bind_ok h
    obtain ⟨rs1, -, h⟩ := bind_ok h
    obtain ⟨imm, -, h⟩ := bind_ok h
    cases h; exact hm _ _ _
  · cases h

theorem asmShift_wellFormed {k : AsmCtx} {mk : Reg → Reg → BitVec 5 → Instr} {os : List Operand} {i : Instr}
    (hm : ∀ a b c, (mk a b c).wellFormed = true) (h : k.asmShift mk os = .ok i) : i.wellFormed = true := by
  unfold AsmCtx.asmShift at h
  split at h
  · obtain ⟨rd, -, h⟩ := bind_ok h
    obtain ⟨rs1, -, h⟩ := bind_ok h
    obtain ⟨shamt, -, h⟩ := bind_ok h
    cases h; exact hm _ _ _
  · cases h

theorem asmIndexed_wellFormed {k : AsmCtx} {mk : Reg → Reg → BitVec 12 → Instr} {os : List Operand} {i : Instr}
    (hm : ∀ a b c, (mk a b c).wellFormed = true) (h : k.asmIndexed mk os = .ok i) : i.wellFormed = true := by
  unfold AsmCtx.asmIndexed at h
  split at h
  · obtain ⟨r, -, h⟩ := bind_ok h
    obtain ⟨rs1, -, h⟩ := bind_ok h
    obtain ⟨imm, -, h⟩ := bind_ok h
    cases h; exact hm _ _ _
  · cases h

theorem asmB_wellFormed {k : AsmCtx} {mk : Reg → Reg → BitVec 13 → Instr} {os : List Operand} {i : Instr}
    (hm : ∀ a b off, (mk a b off).wellFormed = evenOffset off) (h : k.asmB mk os = .ok i) : i.wellFormed = true := by
  unfold AsmCtx.asmB at h
  split at h
  · obtain ⟨rs1, -, h⟩ := bind_ok h
    obtain ⟨rs2, -, h⟩ := bind_ok h
    obtain ⟨d, -, h⟩ := bind_ok h
    obtain ⟨off, ho, h⟩ := bind_ok h
    cases h; rw [hm]; exact off13Of_even ho
  · cases h

theorem asmJ_wellFormed {k : AsmCtx} {mk : Reg → BitVec 21 → Instr} {os : List Operand} {i : Instr}
    (hm : ∀ a off, (mk a off).wellFormed = evenOffset off) (h : k.asmJ mk os = .ok i) : i.wellFormed = true := by
  unfold AsmCtx.asmJ at h
  split at h
  · obtain ⟨rd, -, h⟩ := bind_ok h
    obtain ⟨d, -, h⟩ := bind_ok h
    obtain ⟨off, ho, h⟩ := bind_ok h
    cases h; rw [hm]; exact off21Of_even ho
  · cases h

theorem asmNone_wellFormed {k : AsmCtx} {i j : Instr} {os : List Operand} (hj : j.wellFormed = true)
    (h : k.asmNone j os = .ok i) : i.wellFormed = true := by
  unfold AsmCtx.asmNone at h
  split at h
  · cases h; exact hj
  · cases h

theorem build_wellFormed {k : AsmCtx} {m : Mnemonic} {os : List Operand} {i : Instr} (h : k.build m os = .ok i) :
    i.wellFormed = true := by
  cases m <;>
    first
    | exact asmU_wellFormed (fun _ _ => rfl) h
    | exact asmJ_wellFormed (fun _ _ => rfl) h
    | exact asmB_wellFormed (fun _ _ _ => rfl) h
    | exact asmIndexed_wellFormed (fun _ _ _ => rfl) h
    | exact asmI_wellFormed (fun _ _ _ => rfl) h
    | exact asmShift_wellFormed (fun _ _ _ => rfl) h
    | exact asmR_wellFormed (fun _ _ _ => rfl) h
    | exact asmNone_wellFormed rfl h

theorem encodePass_wellFormed {t : LabelTable} {addr : Nat} {sts : List Stmt} {is : List Instr}
    (h : encodePass t addr sts = .ok is) : ∀ i ∈ is, i.wellFormed = true := by
  induction sts generalizing addr is with
  | nil => cases h; simp
  | cons st sts ih =>
    rw [encodePass] at h
    split at h
    · exact ih h
    · split at h
      · cases h
      · rename_i hb
        split at h
        · cases h
        · rename_i hr
          cases h
          unfold AsmCtx.buildNamed at hb
          split at hb
          · simpa using ⟨build_wellFormed hb, ih hr⟩
          · cases hb

/-- The instructions of a text that assembles are well-formed, and its words are their encodings. -/
theorem assembleText_ok {text : List Char} {ws : List Word} (h : assembleText text = .ok ws) :
    ∃ is : List Instr, ws = is.map encode ∧ ∀ i ∈ is, i.wellFormed = true := by
  unfold assembleText assembleInstrs at h
  split at h
  · cases h
  · rename_i is hi
    cases h
    refine ⟨is, rfl, ?_⟩
    split at hi
    · cases hi
    · split at hi
      · cases hi
      · split at hi
        · cases hi
        · exact encodePass_wellFormed hi

/-! ## Malformed operand lists are found when a line is parsed (R91) -/

theorem instrStmt_fits {line col : Nat} {label : Option (List Char)} {m : List Char} {os : List Operand} {st : Stmt}
    (h : instrStmt line col label m os = .ok st) : operandsFit m os = true ∧ st.instr = some (m, os) := by
  unfold instrStmt at h
  split at h
  · cases h; exact ⟨‹_›, rfl⟩
  · cases h

theorem parseInstr_fits {line : Nat} {label : Option (List Char)} {toks : List (Nat × Token)} {st : Stmt}
    {m : List Char} {os : List Operand} (h : parseInstr line label toks = .ok st) (hi : st.instr = some (m, os)) :
    operandsFit m os = true := by
  unfold parseInstr at h
  split at h
  · cases h; cases hi
  · obtain ⟨hf, he⟩ := instrStmt_fits h
    rw [he] at hi; cases hi; exact hf
  · split at h
    · obtain ⟨hf, he⟩ := instrStmt_fits h
      rw [he] at hi; cases hi; exact hf
    · cases h
  · cases h

/-- A parsed line has an operand list of the shape R99 gives its mnemonic. -/
theorem parseLine_fits {line : Nat} {toks : List (Nat × Token)} {st : Stmt} {m : List Char} {os : List Operand}
    (h : parseLine line toks = .ok st) (hi : st.instr = some (m, os)) : operandsFit m os = true := by
  unfold parseLine at h
  split at h
  · split at h
    · exact parseInstr_fits h hi
    · cases h
  · exact parseInstr_fits h hi

/-- The failure of an operation is that of its first part, or that of the rest. -/
theorem bind_error {ε α β : Type} {x : Except ε α} {f : α → Except ε β} {e : ε} (h : (x >>= f) = .error e) :
    x = .error e ∨ ∃ a, f a = .error e := by
  cases x with
  | error e' => cases h; exact .inl rfl
  | ok a => exact .inr ⟨a, h⟩

/-- The stop is a `SyntaxError`. -/
def AsmStop.IsSyntax (e : AsmStop) : Prop := ∃ line col reason, e = .failed (.syntaxError line col reason)

theorem registerOf_error_not_syntax {line : Nat} {cs : List Char} {e : AsmStop} (h : registerOf line cs = .error e) :
    ¬e.IsSyntax := by
  unfold registerOf at h
  split at h
  · cases h
  · cases h; rintro ⟨_, _, _, h⟩; cases h

theorem imm12Of_error_not_syntax {line : Nat} {v : Int} {e : AsmStop}
    (h : imm12Of line v = .error e) : ¬e.IsSyntax := by
  unfold imm12Of at h
  split at h
  · cases h
  · cases h; rintro ⟨_, _, _, h⟩; cases h

theorem shamtOf_error_not_syntax {line : Nat} {v : Int} {e : AsmStop}
    (h : shamtOf line v = .error e) : ¬e.IsSyntax := by
  unfold shamtOf at h
  split at h
  · cases h
  · cases h; rintro ⟨_, _, _, h⟩; cases h

theorem imm20Of_error_not_syntax {line : Nat} {v : Int} {e : AsmStop}
    (h : imm20Of line v = .error e) : ¬e.IsSyntax := by
  unfold imm20Of at h
  split at h
  · cases h
  · cases h; rintro ⟨_, _, _, h⟩; cases h

theorem off13Of_error_not_syntax {line : Nat} {v : Int} {e : AsmStop}
    (h : off13Of line v = .error e) : ¬e.IsSyntax := by
  unfold off13Of at h
  split at h
  · cases h
  · cases h; rintro ⟨_, _, _, h⟩; cases h

theorem off21Of_error_not_syntax {line : Nat} {v : Int} {e : AsmStop}
    (h : off21Of line v = .error e) : ¬e.IsSyntax := by
  unfold off21Of at h
  split at h
  · cases h
  · cases h; rintro ⟨_, _, _, h⟩; cases h

theorem displacement_error_not_syntax {k : AsmCtx} {o : Operand} {e : AsmStop} (ht : o.isTarget = true)
    (h : k.displacement o = .error e) : ¬e.IsSyntax := by
  cases o with
  | name l =>
    simp only [AsmCtx.displacement] at h
    split at h
    · cases h
    · cases h; rintro ⟨_, _, _, h⟩; cases h
  | number v => cases h
  | indexed v b => cases ht

theorem asmR_error_not_syntax {k : AsmCtx} {mk : Reg → Reg → Reg → Instr} {os : List Operand} {e : AsmStop}
    (hf : Shape.registers.fits os = true) (h : k.asmR mk os = .error e) : ¬e.IsSyntax := by
  unfold AsmCtx.asmR at h
  split at h
  · obtain h | ⟨_, h⟩ := bind_error h
    · exact registerOf_error_not_syntax h
    obtain h | ⟨_, h⟩ := bind_error h
    · exact registerOf_error_not_syntax h
    obtain h | ⟨_, h⟩ := bind_error h
    · exact registerOf_error_not_syntax h
    cases h
  · rename_i hn
    simp only [Shape.fits] at hf
    split at hf <;> first | exact absurd hf Bool.false_ne_true | simp_all

theorem asmI_error_not_syntax {k : AsmCtx} {mk : Reg → Reg → BitVec 12 → Instr} {os : List Operand} {e : AsmStop}
    (hf : Shape.immediate.fits os = true) (h : k.asmI mk os = .error e) : ¬e.IsSyntax := by
  unfold AsmCtx.asmI at h
  split at h
  · obtain h | ⟨_, h⟩ := bind_error h
    · exact registerOf_error_not_syntax h
    obtain h | ⟨_, h⟩ := bind_error h
    · exact registerOf_error_not_syntax h
    obtain h | ⟨_, h⟩ := bind_error h
    · exact imm12Of_error_not_syntax h
    cases h
  · rename_i hn
    simp only [Shape.fits] at hf
    split at hf <;> first | exact absurd hf Bool.false_ne_true | simp_all

theorem asmShift_error_not_syntax {k : AsmCtx} {mk : Reg → Reg → BitVec 5 → Instr} {os : List Operand} {e : AsmStop}
    (hf : Shape.immediate.fits os = true) (h : k.asmShift mk os = .error e) : ¬e.IsSyntax := by
  unfold AsmCtx.asmShift at h
  split at h
  · obtain h | ⟨_, h⟩ := bind_error h
    · exact registerOf_error_not_syntax h
    obtain h | ⟨_, h⟩ := bind_error h
    · exact registerOf_error_not_syntax h
    obtain h | ⟨_, h⟩ := bind_error h
    · exact shamtOf_error_not_syntax h
    cases h
  · rename_i hn
    simp only [Shape.fits] at hf
    split at hf <;> first | exact absurd hf Bool.false_ne_true | simp_all

theorem asmU_error_not_syntax {k : AsmCtx} {mk : Reg → BitVec 20 → Instr} {os : List Operand} {e : AsmStop}
    (hf : Shape.upper.fits os = true) (h : k.asmU mk os = .error e) : ¬e.IsSyntax := by
  unfold AsmCtx.asmU at h
  split at h
  · obtain h | ⟨_, h⟩ := bind_error h
    · exact registerOf_error_not_syntax h
    obtain h | ⟨_, h⟩ := bind_error h
    · exact imm20Of_error_not_syntax h
    cases h
  · rename_i hn
    simp only [Shape.fits] at hf
    split at hf <;> first | exact absurd hf Bool.false_ne_true | simp_all

theorem asmIndexed_error_not_syntax {k : AsmCtx} {mk : Reg → Reg → BitVec 12 → Instr} {os : List Operand} {e : AsmStop}
    (hf : Shape.indexed.fits os = true) (h : k.asmIndexed mk os = .error e) : ¬e.IsSyntax := by
  unfold AsmCtx.asmIndexed at h
  split at h
  · obtain h | ⟨_, h⟩ := bind_error h
    · exact registerOf_error_not_syntax h
    obtain h | ⟨_, h⟩ := bind_error h
    · exact registerOf_error_not_syntax h
    obtain h | ⟨_, h⟩ := bind_error h
    · exact imm12Of_error_not_syntax h
    cases h
  · rename_i hn
    simp only [Shape.fits] at hf
    split at hf <;> first | exact absurd hf Bool.false_ne_true | simp_all

theorem asmB_error_not_syntax {k : AsmCtx} {mk : Reg → Reg → BitVec 13 → Instr} {os : List Operand} {e : AsmStop}
    (hf : Shape.branch.fits os = true) (h : k.asmB mk os = .error e) : ¬e.IsSyntax := by
  unfold AsmCtx.asmB at h
  split at h
  · obtain h | ⟨_, h⟩ := bind_error h
    · exact registerOf_error_not_syntax h
    obtain h | ⟨_, h⟩ := bind_error h
    · exact registerOf_error_not_syntax h
    obtain h | ⟨_, h⟩ := bind_error h
    · exact displacement_error_not_syntax hf h
    obtain h | ⟨_, h⟩ := bind_error h
    · exact off13Of_error_not_syntax h
    cases h
  · rename_i hn
    simp only [Shape.fits] at hf
    split at hf <;> first | exact absurd hf Bool.false_ne_true | simp_all

theorem asmJ_error_not_syntax {k : AsmCtx} {mk : Reg → BitVec 21 → Instr} {os : List Operand} {e : AsmStop}
    (hf : Shape.jump.fits os = true) (h : k.asmJ mk os = .error e) : ¬e.IsSyntax := by
  unfold AsmCtx.asmJ at h
  split at h
  · obtain h | ⟨_, h⟩ := bind_error h
    · exact registerOf_error_not_syntax h
    obtain h | ⟨_, h⟩ := bind_error h
    · exact displacement_error_not_syntax hf h
    obtain h | ⟨_, h⟩ := bind_error h
    · exact off21Of_error_not_syntax h
    cases h
  · rename_i hn
    simp only [Shape.fits] at hf
    split at hf <;> first | exact absurd hf Bool.false_ne_true | simp_all

theorem asmNone_error_not_syntax {k : AsmCtx} {i : Instr} {os : List Operand} {e : AsmStop}
    (hf : Shape.bare.fits os = true) (h : k.asmNone i os = .error e) : ¬e.IsSyntax := by
  unfold AsmCtx.asmNone at h
  split at h
  · cases h
  · simp only [Shape.fits] at hf
    split at hf <;> first | exact absurd hf Bool.false_ne_true | simp_all

/-- Encoding an instruction whose operand list fits never answers a `SyntaxError`: those are all found in parsing. -/
theorem build_error_not_syntax {k : AsmCtx} {m : Mnemonic} {os : List Operand} {e : AsmStop}
    (hf : (shapeOf m).fits os = true)
    (h : k.build m os = .error e) : ¬e.IsSyntax := by
  cases m <;>
    first
    | exact asmU_error_not_syntax hf h
    | exact asmJ_error_not_syntax hf h
    | exact asmB_error_not_syntax hf h
    | exact asmIndexed_error_not_syntax hf h
    | exact asmI_error_not_syntax hf h
    | exact asmShift_error_not_syntax hf h
    | exact asmR_error_not_syntax hf h
    | exact asmNone_error_not_syntax hf h

/-! ## An image as bytes, and its listing -/

/-- Byte `j` of word `k` of an image stands at place 4k + j (R42, R242). -/
theorem flatMap_wordBytes_getD (ws : List Word) (k j : Nat) (w : Word) (h : ws[k]? = some w) (hj : j < 4) :
    (ws.flatMap wordBytes).getD (4 * k + j) 0#8 = w.extractLsb' (8 * j) 8 := by
  induction ws generalizing k with
  | nil => simp at h
  | cons v ws ih =>
    cases k with
    | zero =>
      simp only [List.getElem?_cons_zero, Option.some.injEq] at h
      subst h
      have : j = 0 ∨ j = 1 ∨ j = 2 ∨ j = 3 := by omega
      rcases this with rfl | rfl | rfl | rfl <;> rfl
    | succ k =>
      have e : 4 * (k + 1) + j = 4 * k + j + 4 := by omega
      rw [e]
      exact ih k h

theorem flatMap_wordBytes_length (ws : List Word) : (ws.flatMap wordBytes).length = 4 * ws.length := by
  induction ws with
  | nil => rfl
  | cons w ws ih => simp only [List.flatMap_cons, List.length_append, ih, List.length_cons]; simp [wordBytes]; omega

/-- The listing has one line per word, and line `k` is that of word `k` at address 4k further on (R102). -/
theorem listingFrom_getElem (addr : Nat) (ws : List Word) (k : Nat) :
    (listingFrom addr ws)[k]? = ws[k]?.map (listingLine (addr + 4 * k)) := by
  induction ws generalizing addr k with
  | nil => simp [listingFrom]
  | cons w ws ih =>
    cases k with
    | zero => simp [listingFrom]
    | succ k =>
      have e : addr + 4 + 4 * k = addr + 4 * (k + 1) := by omega
      simp only [listingFrom, List.getElem?_cons_succ, ih, e]

theorem listingFrom_length (addr : Nat) (ws : List Word) : (listingFrom addr ws).length = ws.length := by
  induction ws generalizing addr with
  | nil => rfl
  | cons w ws ih => simp [listingFrom, ih]

end Sys2Proof.Machine
end

