-- ==== Sys2Proof/Laws/Decode.lean ====
section
/-! SUPPORT. The fields of an encoded word: reading a field of a word put together by EncR .. EncJ (30_encoding.md R87)
gives the field back. Later proofs cite these and never look at the bits again. -/

namespace Sys2Proof

/-! ## Format R -/

@[simp] theorem opcode_encR (f7 : BitVec 7) (rs2 rs1 : Reg) (f3 : BitVec 3) (rd : Reg) (opc : BitVec 7) :
    opcodeOf (encR f7 rs2 rs1 f3 rd opc) = opc := by
  apply BitVec.eq_of_getLsbD_eq
  intro i hi
  simp only [opcodeOf, encR, BitVec.getLsbD_append, BitVec.getLsbD_extractLsb', hi, decide_true, Bool.true_and]
  grind

@[simp] theorem rd_encR (f7 : BitVec 7) (rs2 rs1 : Reg) (f3 : BitVec 3) (rd : Reg) (opc : BitVec 7) :
    rdOf (encR f7 rs2 rs1 f3 rd opc) = rd := by
  apply BitVec.eq_of_getLsbD_eq
  intro i hi
  simp only [rdOf, encR, BitVec.getLsbD_append, BitVec.getLsbD_extractLsb', hi, decide_true, Bool.true_and]
  grind

@[simp] theorem funct3_encR (f7 : BitVec 7) (rs2 rs1 : Reg) (f3 : BitVec 3) (rd : Reg) (opc : BitVec 7) :
    funct3Of (encR f7 rs2 rs1 f3 rd opc) = f3 := by
  apply BitVec.eq_of_getLsbD_eq
  intro i hi
  simp only [funct3Of, encR, BitVec.getLsbD_append, BitVec.getLsbD_extractLsb', hi, decide_true, Bool.true_and]
  grind

@[simp] theorem rs1_encR (f7 : BitVec 7) (rs2 rs1 : Reg) (f3 : BitVec 3) (rd : Reg) (opc : BitVec 7) :
    rs1Of (encR f7 rs2 rs1 f3 rd opc) = rs1 := by
  apply BitVec.eq_of_getLsbD_eq
  intro i hi
  simp only [rs1Of, encR, BitVec.getLsbD_append, BitVec.getLsbD_extractLsb', hi, decide_true, Bool.true_and]
  grind

@[simp] theorem rs2_encR (f7 : BitVec 7) (rs2 rs1 : Reg) (f3 : BitVec 3) (rd : Reg) (opc : BitVec 7) :
    rs2Of (encR f7 rs2 rs1 f3 rd opc) = rs2 := by
  apply BitVec.eq_of_getLsbD_eq
  intro i hi
  simp only [rs2Of, encR, BitVec.getLsbD_append, BitVec.getLsbD_extractLsb', hi, decide_true, Bool.true_and]
  grind

@[simp] theorem funct7_encR (f7 : BitVec 7) (rs2 rs1 : Reg) (f3 : BitVec 3) (rd : Reg) (opc : BitVec 7) :
    funct7Of (encR f7 rs2 rs1 f3 rd opc) = f7 := by
  apply BitVec.eq_of_getLsbD_eq
  intro i hi
  simp only [funct7Of, encR, BitVec.getLsbD_append, BitVec.getLsbD_extractLsb', hi, decide_true, Bool.true_and]
  grind

/-! ## Format I -/

@[simp] theorem opcode_encI (imm : BitVec 12) (rs1 : Reg) (f3 : BitVec 3) (rd : Reg) (opc : BitVec 7) :
    opcodeOf (encI imm rs1 f3 rd opc) = opc := by
  apply BitVec.eq_of_getLsbD_eq
  intro i hi
  simp only [opcodeOf, encI, BitVec.getLsbD_append, BitVec.getLsbD_extractLsb', hi, decide_true, Bool.true_and]
  grind

@[simp] theorem rd_encI (imm : BitVec 12) (rs1 : Reg) (f3 : BitVec 3) (rd : Reg) (opc : BitVec 7) :
    rdOf (encI imm rs1 f3 rd opc) = rd := by
  apply BitVec.eq_of_getLsbD_eq
  intro i hi
  simp only [rdOf, encI, BitVec.getLsbD_append, BitVec.getLsbD_extractLsb', hi, decide_true, Bool.true_and]
  grind

@[simp] theorem funct3_encI (imm : BitVec 12) (rs1 : Reg) (f3 : BitVec 3) (rd : Reg) (opc : BitVec 7) :
    funct3Of (encI imm rs1 f3 rd opc) = f3 := by
  apply BitVec.eq_of_getLsbD_eq
  intro i hi
  simp only [funct3Of, encI, BitVec.getLsbD_append, BitVec.getLsbD_extractLsb', hi, decide_true, Bool.true_and]
  grind

@[simp] theorem rs1_encI (imm : BitVec 12) (rs1 : Reg) (f3 : BitVec 3) (rd : Reg) (opc : BitVec 7) :
    rs1Of (encI imm rs1 f3 rd opc) = rs1 := by
  apply BitVec.eq_of_getLsbD_eq
  intro i hi
  simp only [rs1Of, encI, BitVec.getLsbD_append, BitVec.getLsbD_extractLsb', hi, decide_true, Bool.true_and]
  grind

@[simp] theorem immI_encI (imm : BitVec 12) (rs1 : Reg) (f3 : BitVec 3) (rd : Reg) (opc : BitVec 7) :
    immIOf (encI imm rs1 f3 rd opc) = imm := by
  apply BitVec.eq_of_getLsbD_eq
  intro i hi
  simp only [immIOf, encI, BitVec.getLsbD_append, BitVec.getLsbD_extractLsb', hi, decide_true, Bool.true_and]
  grind

@[simp] theorem rs2_encI_shift (f7 : BitVec 7) (shamt : BitVec 5) (rs1 : Reg) (f3 : BitVec 3) (rd : Reg) (opc : BitVec 7) :
    rs2Of (encI (f7 ++ shamt) rs1 f3 rd opc) = shamt := by
  apply BitVec.eq_of_getLsbD_eq
  intro i hi
  simp only [rs2Of, encI, BitVec.getLsbD_append, BitVec.getLsbD_extractLsb', hi, decide_true, Bool.true_and]
  grind

@[simp] theorem funct7_encI_shift (f7 : BitVec 7) (shamt : BitVec 5) (rs1 : Reg) (f3 : BitVec 3) (rd : Reg) (opc : BitVec 7) :
    funct7Of (encI (f7 ++ shamt) rs1 f3 rd opc) = f7 := by
  apply BitVec.eq_of_getLsbD_eq
  intro i hi
  simp only [funct7Of, encI, BitVec.getLsbD_append, BitVec.getLsbD_extractLsb', hi, decide_true, Bool.true_and]
  grind

@[simp] theorem fm_encI_fence (fm pred succ : BitVec 4) (rs1 : Reg) (f3 : BitVec 3) (rd : Reg) (opc : BitVec 7) :
    fmOf (encI (fm ++ pred ++ succ) rs1 f3 rd opc) = fm := by
  apply BitVec.eq_of_getLsbD_eq
  intro i hi
  simp only [fmOf, encI, BitVec.getLsbD_append, BitVec.getLsbD_extractLsb', hi, decide_true, Bool.true_and]
  grind

@[simp] theorem pred_encI_fence (fm pred succ : BitVec 4) (rs1 : Reg) (f3 : BitVec 3) (rd : Reg) (opc : BitVec 7) :
    predOf (encI (fm ++ pred ++ succ) rs1 f3 rd opc) = pred := by
  apply BitVec.eq_of_getLsbD_eq
  intro i hi
  simp only [predOf, encI, BitVec.getLsbD_append, BitVec.getLsbD_extractLsb', hi, decide_true, Bool.true_and]
  grind

@[simp] theorem succ_encI_fence (fm pred succ : BitVec 4) (rs1 : Reg) (f3 : BitVec 3) (rd : Reg) (opc : BitVec 7) :
    succOf (encI (fm ++ pred ++ succ) rs1 f3 rd opc) = succ := by
  apply BitVec.eq_of_getLsbD_eq
  intro i hi
  simp only [succOf, encI, BitVec.getLsbD_append, BitVec.getLsbD_extractLsb', hi, decide_true, Bool.true_and]
  grind

/-! ## Format S -/

@[simp] theorem opcode_encS (imm : BitVec 12) (rs2 rs1 : Reg) (f3 : BitVec 3) (opc : BitVec 7) :
    opcodeOf (encS imm rs2 rs1 f3 opc) = opc := by
  apply BitVec.eq_of_getLsbD_eq
  intro i hi
  simp only [opcodeOf, encS, BitVec.getLsbD_append, BitVec.getLsbD_extractLsb', hi, decide_true, Bool.true_and]
  grind

@[simp] theorem funct3_encS (imm : BitVec 12) (rs2 rs1 : Reg) (f3 : BitVec 3) (opc : BitVec 7) :
    funct3Of (encS imm rs2 rs1 f3 opc) = f3 := by
  apply BitVec.eq_of_getLsbD_eq
  intro i hi
  simp only [funct3Of, encS, BitVec.getLsbD_append, BitVec.getLsbD_extractLsb', hi, decide_true, Bool.true_and]
  grind

@[simp] theorem rs1_encS (imm : BitVec 12) (rs2 rs1 : Reg) (f3 : BitVec 3) (opc : BitVec 7) :
    rs1Of (encS imm rs2 rs1 f3 opc) = rs1 := by
  apply BitVec.eq_of_getLsbD_eq
  intro i hi
  simp only [rs1Of, encS, BitVec.getLsbD_append, BitVec.getLsbD_extractLsb', hi, decide_true, Bool.true_and]
  grind

@[simp] theorem rs2_encS (imm : BitVec 12) (rs2 rs1 : Reg) (f3 : BitVec 3) (opc : BitVec 7) :
    rs2Of (encS imm rs2 rs1 f3 opc) = rs2 := by
  apply BitVec.eq_of_getLsbD_eq
  intro i hi
  simp only [rs2Of, encS, BitVec.getLsbD_append, BitVec.getLsbD_extractLsb', hi, decide_true, Bool.true_and]
  grind

@[simp] theorem immS_encS (imm : BitVec 12) (rs2 rs1 : Reg) (f3 : BitVec 3) (opc : BitVec 7) :
    immSOf (encS imm rs2 rs1 f3 opc) = imm := by
  apply BitVec.eq_of_getLsbD_eq
  intro i hi
  simp only [immSOf, encS, BitVec.getLsbD_append, BitVec.getLsbD_extractLsb']
  grind

/-! ## Format B -/

@[simp] theorem opcode_encB (imm : BitVec 13) (rs2 rs1 : Reg) (f3 : BitVec 3) (opc : BitVec 7) :
    opcodeOf (encB imm rs2 rs1 f3 opc) = opc := by
  apply BitVec.eq_of_getLsbD_eq
  intro i hi
  simp only [opcodeOf, encB, BitVec.getLsbD_append, BitVec.getLsbD_extractLsb', hi, decide_true, Bool.true_and]
  grind

@[simp] theorem funct3_encB (imm : BitVec 13) (rs2 rs1 : Reg) (f3 : BitVec 3) (opc : BitVec 7) :
    funct3Of (encB imm rs2 rs1 f3 opc) = f3 := by
  apply BitVec.eq_of_getLsbD_eq
  intro i hi
  simp only [funct3Of, encB, BitVec.getLsbD_append, BitVec.getLsbD_extractLsb', hi, decide_true, Bool.true_and]
  grind

@[simp] theorem rs1_encB (imm : BitVec 13) (rs2 rs1 : Reg) (f3 : BitVec 3) (opc : BitVec 7) :
    rs1Of (encB imm rs2 rs1 f3 opc) = rs1 := by
  apply BitVec.eq_of_getLsbD_eq
  intro i hi
  simp only [rs1Of, encB, BitVec.getLsbD_append, BitVec.getLsbD_extractLsb', hi, decide_true, Bool.true_and]
  grind

@[simp] theorem rs2_encB (imm : BitVec 13) (rs2 rs1 : Reg) (f3 : BitVec 3) (opc : BitVec 7) :
    rs2Of (encB imm rs2 rs1 f3 opc) = rs2 := by
  apply BitVec.eq_of_getLsbD_eq
  intro i hi
  simp only [rs2Of, encB, BitVec.getLsbD_append, BitVec.getLsbD_extractLsb', hi, decide_true, Bool.true_and]
  grind

/-- The branch displacement comes back because its bit 0 is 0 (R74). -/
theorem immB_encB (imm : BitVec 13) (rs2 rs1 : Reg) (f3 : BitVec 3) (opc : BitVec 7) (h : imm.getLsbD 0 = false) :
    immBOf (encB imm rs2 rs1 f3 opc) = imm := by
  apply BitVec.eq_of_getLsbD_eq
  intro i hi
  simp only [immBOf, encB, BitVec.getLsbD_append, BitVec.getLsbD_extractLsb']
  grind

/-! ## Format U -/

@[simp] theorem opcode_encU (imm : BitVec 20) (rd : Reg) (opc : BitVec 7) :
    opcodeOf (encU imm rd opc) = opc := by
  apply BitVec.eq_of_getLsbD_eq
  intro i hi
  simp only [opcodeOf, encU, BitVec.getLsbD_append, BitVec.getLsbD_extractLsb', hi, decide_true, Bool.true_and]
  grind

@[simp] theorem rd_encU (imm : BitVec 20) (rd : Reg) (opc : BitVec 7) :
    rdOf (encU imm rd opc) = rd := by
  apply BitVec.eq_of_getLsbD_eq
  intro i hi
  simp only [rdOf, encU, BitVec.getLsbD_append, BitVec.getLsbD_extractLsb', hi, decide_true, Bool.true_and]
  grind

@[simp] theorem immU_encU (imm : BitVec 20) (rd : Reg) (opc : BitVec 7) :
    immUOf (encU imm rd opc) = imm := by
  apply BitVec.eq_of_getLsbD_eq
  intro i hi
  simp only [immUOf, encU, BitVec.getLsbD_append, BitVec.getLsbD_extractLsb', hi, decide_true, Bool.true_and]
  grind

/-! ## Format J -/

@[simp] theorem opcode_encJ (imm : BitVec 21) (rd : Reg) (opc : BitVec 7) :
    opcodeOf (encJ imm rd opc) = opc := by
  apply BitVec.eq_of_getLsbD_eq
  intro i hi
  simp only [opcodeOf, encJ, BitVec.getLsbD_append, BitVec.getLsbD_extractLsb', hi, decide_true, Bool.true_and]
  grind

@[simp] theorem rd_encJ (imm : BitVec 21) (rd : Reg) (opc : BitVec 7) :
    rdOf (encJ imm rd opc) = rd := by
  apply BitVec.eq_of_getLsbD_eq
  intro i hi
  simp only [rdOf, encJ, BitVec.getLsbD_append, BitVec.getLsbD_extractLsb', hi, decide_true, Bool.true_and]
  grind

/-- The jump displacement comes back because its bit 0 is 0 (R76). -/
theorem immJ_encJ (imm : BitVec 21) (rd : Reg) (opc : BitVec 7) (h : imm.getLsbD 0 = false) :
    immJOf (encJ imm rd opc) = imm := by
  apply BitVec.eq_of_getLsbD_eq
  intro i hi
  simp only [immJOf, encJ, BitVec.getLsbD_append, BitVec.getLsbD_extractLsb']
  grind

/-! ## A word is its fields put together -/

theorem encR_fields (w : Word) :
    encR (funct7Of w) (rs2Of w) (rs1Of w) (funct3Of w) (rdOf w) (opcodeOf w) = w := by
  apply BitVec.eq_of_getLsbD_eq
  intro i hi
  simp only [encR, funct7Of, rs2Of, rs1Of, funct3Of, rdOf, opcodeOf, BitVec.getLsbD_append, BitVec.getLsbD_extractLsb']
  grind

theorem encI_fields (w : Word) : encI (immIOf w) (rs1Of w) (funct3Of w) (rdOf w) (opcodeOf w) = w := by
  apply BitVec.eq_of_getLsbD_eq
  intro i hi
  simp only [encI, immIOf, rs1Of, funct3Of, rdOf, opcodeOf, BitVec.getLsbD_append, BitVec.getLsbD_extractLsb']
  grind

theorem immI_shift_fields (w : Word) : funct7Of w ++ rs2Of w = immIOf w := by
  apply BitVec.eq_of_getLsbD_eq
  intro i hi
  simp only [immIOf, funct7Of, rs2Of, BitVec.getLsbD_append, BitVec.getLsbD_extractLsb']
  grind

theorem immI_fence_fields (w : Word) : fmOf w ++ predOf w ++ succOf w = immIOf w := by
  apply BitVec.eq_of_getLsbD_eq
  intro i hi
  simp only [immIOf, fmOf, predOf, succOf, BitVec.getLsbD_append, BitVec.getLsbD_extractLsb']
  grind

theorem encS_fields (w : Word) : encS (immSOf w) (rs2Of w) (rs1Of w) (funct3Of w) (opcodeOf w) = w := by
  apply BitVec.eq_of_getLsbD_eq
  intro i hi
  simp only [encS, immSOf, rs2Of, rs1Of, funct3Of, opcodeOf, BitVec.getLsbD_append, BitVec.getLsbD_extractLsb']
  grind

theorem encB_fields (w : Word) : encB (immBOf w) (rs2Of w) (rs1Of w) (funct3Of w) (opcodeOf w) = w := by
  apply BitVec.eq_of_getLsbD_eq
  intro i hi
  simp only [encB, immBOf, rs2Of, rs1Of, funct3Of, opcodeOf, BitVec.getLsbD_append, BitVec.getLsbD_extractLsb']
  grind

theorem encU_fields (w : Word) : encU (immUOf w) (rdOf w) (opcodeOf w) = w := by
  apply BitVec.eq_of_getLsbD_eq
  intro i hi
  simp only [encU, immUOf, rdOf, opcodeOf, BitVec.getLsbD_append, BitVec.getLsbD_extractLsb']
  grind

theorem encJ_fields (w : Word) : encJ (immJOf w) (rdOf w) (opcodeOf w) = w := by
  apply BitVec.eq_of_getLsbD_eq
  intro i hi
  simp only [encJ, immJOf, rdOf, opcodeOf, BitVec.getLsbD_append, BitVec.getLsbD_extractLsb']
  grind

/-! With the selecting fields known, the rest of the word is the operands. -/

theorem encR_of_fields {w : Word} {o : BitVec 7} {f3 : BitVec 3} {f7 : BitVec 7} (ho : opcodeOf w = o)
    (h3 : funct3Of w = f3) (h7 : funct7Of w = f7) : encR f7 (rs2Of w) (rs1Of w) f3 (rdOf w) o = w := by
  subst ho h3 h7; exact encR_fields w

theorem encI_of_fields {w : Word} {o : BitVec 7} {f3 : BitVec 3} (ho : opcodeOf w = o) (h3 : funct3Of w = f3) :
    encI (immIOf w) (rs1Of w) f3 (rdOf w) o = w := by
  subst ho h3; exact encI_fields w

theorem encShift_of_fields {w : Word} {o : BitVec 7} {f3 : BitVec 3} {f7 : BitVec 7} (ho : opcodeOf w = o)
    (h3 : funct3Of w = f3) (h7 : funct7Of w = f7) : encI (f7 ++ rs2Of w) (rs1Of w) f3 (rdOf w) o = w := by
  subst ho h3 h7; rw [immI_shift_fields]; exact encI_fields w

theorem encFence_of_fields {w : Word} {o : BitVec 7} {f3 : BitVec 3} (ho : opcodeOf w = o) (h3 : funct3Of w = f3) :
    encI (fmOf w ++ predOf w ++ succOf w) (rs1Of w) f3 (rdOf w) o = w := by
  subst ho h3; rw [immI_fence_fields]; exact encI_fields w

theorem encS_of_fields {w : Word} {o : BitVec 7} {f3 : BitVec 3} (ho : opcodeOf w = o) (h3 : funct3Of w = f3) :
    encS (immSOf w) (rs2Of w) (rs1Of w) f3 o = w := by
  subst ho h3; exact encS_fields w

theorem encB_of_fields {w : Word} {o : BitVec 7} {f3 : BitVec 3} (ho : opcodeOf w = o) (h3 : funct3Of w = f3) :
    encB (immBOf w) (rs2Of w) (rs1Of w) f3 o = w := by
  subst ho h3; exact encB_fields w

theorem encU_of_fields {w : Word} {o : BitVec 7} (ho : opcodeOf w = o) : encU (immUOf w) (rdOf w) o = w := by
  subst ho; exact encU_fields w

theorem encJ_of_fields {w : Word} {o : BitVec 7} (ho : opcodeOf w = o) : encJ (immJOf w) (rdOf w) o = w := by
  subst ho; exact encJ_fields w

/-- The eight values of a funct3 field. -/
theorem funct3_values (f : BitVec 3) :
    f = 0#3 ∨ f = 1#3 ∨ f = 2#3 ∨ f = 3#3 ∨ f = 4#3 ∨ f = 5#3 ∨ f = 6#3 ∨ f = 7#3 := by
  revert f; decide

@[simp] theorem evenOffset_immBOf (w : Word) : evenOffset (immBOf w) = true := by
  rw [evenOffset, immBOf, BitVec.getLsbD_append]
  simp

@[simp] theorem evenOffset_immJOf (w : Word) : evenOffset (immJOf w) = true := by
  rw [evenOffset, immJOf, BitVec.getLsbD_append]
  simp

theorem evenOffset_bit {n : Nat} {off : BitVec n} (h : evenOffset off = true) : off.getLsbD 0 = false := by
  simpa [evenOffset] using h

/-- The B format written out field by field (R71, R74). -/
theorem encB_pieces (b12 : BitVec 1) (b11 : BitVec 1) (b10 : BitVec 6) (b4 : BitVec 4) (rs2 rs1 : Reg) (f3 : BitVec 3)
    (opc : BitVec 7) :
    encB (b12 ++ b11 ++ b10 ++ b4 ++ 0#1) rs2 rs1 f3 opc = b12 ++ b10 ++ rs2 ++ rs1 ++ f3 ++ b4 ++ b11 ++ opc := by
  apply BitVec.eq_of_getLsbD_eq
  intro i hi
  simp only [encB, BitVec.getLsbD_append, BitVec.getLsbD_extractLsb']
  grind

/-- The J format written out field by field (R71, R76). -/
theorem encJ_pieces (b20 : BitVec 1) (b19 : BitVec 8) (b11 : BitVec 1) (b10 : BitVec 10) (rd : Reg) (opc : BitVec 7) :
    encJ (b20 ++ b19 ++ b11 ++ b10 ++ 0#1) rd opc = b20 ++ b10 ++ b11 ++ b19 ++ rd ++ opc := by
  apply BitVec.eq_of_getLsbD_eq
  intro i hi
  simp only [encJ, BitVec.getLsbD_append, BitVec.getLsbD_extractLsb']
  grind

/-- The S format written out field by field (R71, R73). -/
theorem encS_pieces (hi : BitVec 7) (lo : BitVec 5) (rs2 rs1 : Reg) (f3 : BitVec 3) (opc : BitVec 7) :
    encS (hi ++ lo) rs2 rs1 f3 opc = hi ++ rs2 ++ rs1 ++ f3 ++ lo ++ opc := by
  apply BitVec.eq_of_getLsbD_eq
  intro i hi
  simp only [encS, BitVec.getLsbD_append, BitVec.getLsbD_extractLsb']
  grind

/-! ## The three masks of R82 select fields -/

theorem and_seven_ones (v : BitVec 7) : v &&& 127#7 = v := BitVec.and_allOnes (x := v)

theorem and_three_ones (v : BitVec 3) : v &&& 7#3 = v := BitVec.and_allOnes (x := v)

theorem opcode_mask (w p : Word) : w &&& 0x7F#32 = p &&& 0x7F#32 ↔ opcodeOf w = opcodeOf p := by
  constructor <;> intro h
  · have h' := congrArg (fun v : Word => v.extractLsb' 0 7) h
    simpa [opcodeOf, BitVec.extractLsb'_and, and_seven_ones] using h'
  · apply BitVec.eq_of_getLsbD_eq
    intro i hi
    have h' := congrArg (fun v : BitVec 7 => v.getLsbD i) h
    simp only [opcodeOf, BitVec.getLsbD_extractLsb'] at h'
    simp only [BitVec.getLsbD_and]
    interval_cases i <;> simp_all

theorem opcode_funct3_mask (w p : Word) :
    w &&& 0x707F#32 = p &&& 0x707F#32 ↔ opcodeOf w = opcodeOf p ∧ funct3Of w = funct3Of p := by
  constructor
  · intro h
    have h' := congrArg (fun v : Word => (v.extractLsb' 0 7, v.extractLsb' 12 3)) h
    simpa [opcodeOf, funct3Of, BitVec.extractLsb'_and, and_seven_ones, and_three_ones] using h'
  · rintro ⟨h, h3⟩
    apply BitVec.eq_of_getLsbD_eq
    intro i hi
    have h' := congrArg (fun v : BitVec 7 => v.getLsbD i) h
    have h3' := congrArg (fun v : BitVec 3 => v.getLsbD (i - 12)) h3
    simp only [opcodeOf, funct3Of, BitVec.getLsbD_extractLsb'] at h' h3'
    simp only [BitVec.getLsbD_and]
    interval_cases i <;> simp_all

theorem opcode_funct3_funct7_mask (w p : Word) :
    w &&& 0xFE00707F#32 = p &&& 0xFE00707F#32 ↔
      opcodeOf w = opcodeOf p ∧ funct3Of w = funct3Of p ∧ funct7Of w = funct7Of p := by
  constructor
  · intro h
    have h' := congrArg (fun v : Word => (v.extractLsb' 0 7, v.extractLsb' 12 3, v.extractLsb' 25 7)) h
    simpa [opcodeOf, funct3Of, funct7Of, BitVec.extractLsb'_and, and_seven_ones, and_three_ones] using h'
  · rintro ⟨h, h3, h7⟩
    apply BitVec.eq_of_getLsbD_eq
    intro i hi
    have h' := congrArg (fun v : BitVec 7 => v.getLsbD i) h
    have h3' := congrArg (fun v : BitVec 3 => v.getLsbD (i - 12)) h3
    have h7' := congrArg (fun v : BitVec 7 => v.getLsbD (i - 25)) h7
    simp only [opcodeOf, funct3Of, funct7Of, BitVec.getLsbD_extractLsb'] at h' h3' h7'
    simp only [BitVec.getLsbD_and]
    interval_cases i <;> simp_all

end Sys2Proof
end

