-- ==== Sys2Proof/Laws/Memory.lean ====
section
/-! SUPPORT. Memory: what a byte reads as after each operation, and that every operation keeps the canonical form and
the capacity bound. -/

namespace Sys2Proof.Machine

/-! ## One byte -/

@[simp] theorem Memory.byte_nil (a : Nat) : Memory.byte [] a = 0#8 := rfl

@[simp] theorem Memory.byte_cons (c : Host.Cell) (m : Memory) (a : Nat) :
    Memory.byte (c :: m) a = if c.1 = a then c.2 else Memory.byte m a := rfl

/-- An address no cell is listed for reads 0. -/
theorem Memory.byte_unlisted {m : Memory} {a : Nat} (h : ∀ c ∈ m, c.1 ≠ a) : Memory.byte m a = 0#8 := by
  induction m with
  | nil => rfl
  | cons c m ih => simp [h c (by simp), ih fun d hd => h d (by simp [hd])]

theorem Memory.byte_erase (m : Memory) (a b : Nat) :
    Memory.byte (Memory.erase m a) b = if b = a then 0#8 else Memory.byte m b := by
  induction m with
  | nil => simp [Memory.erase]
  | cons c m ih =>
    unfold Memory.erase at ih ⊢
    by_cases h : c.1 = a <;> grind [Memory.byte_cons]

theorem Memory.erase_unlisted (m : Memory) (a : Nat) : ∀ c ∈ Memory.erase m a, c.1 ≠ a := by
  intro c hc; simpa using (List.mem_filter.mp hc).2

theorem Memory.byte_insert {m : Memory} {a : Nat} (h : ∀ c ∈ m, c.1 ≠ a) (v : Byte) (b : Nat) :
    Memory.byte (Memory.insert m a v) b = if b = a then v else Memory.byte m b := by
  induction m with
  | nil => grind [Memory.insert, Memory.byte_cons, Memory.byte_nil]
  | cons c m ih =>
    have ih := ih fun d hd => h d (by simp [hd])
    have hc := h c (by simp)
    unfold Memory.insert
    split <;> grind [Memory.byte_cons]

/-- The byte at `b` after a byte was written at `a`. -/
theorem Memory.byte_set (m : Memory) (a : Nat) (v : Byte) (b : Nat) :
    Memory.byte (Memory.set m a v) b = if b = a then v else Memory.byte m b := by
  unfold Memory.set
  split
  · simp_all [Memory.byte_erase]
  · rw [Memory.byte_insert (Memory.erase_unlisted m a), Memory.byte_erase]
    split <;> rfl

/-! ## The canonical form -/

theorem Memory.wf_nil : Memory.Wf [] := by simp [Memory.Wf]

/-- Memory right after reset has the form. -/
theorem State.reset_mem_wf : Memory.Wf State.reset.mem := Memory.wf_nil

theorem Memory.erase_wf {m : Memory} (h : Memory.Wf m) (a : Nat) : Memory.Wf (Memory.erase m a) :=
  ⟨h.1.filter _, fun c hc => h.2 c (List.mem_filter.mp hc).1⟩

theorem Memory.mem_insert {m : Memory} {a : Nat} {v : Byte} {c : Host.Cell} (h : c ∈ Memory.insert m a v) :
    c = (a, v) ∨ c ∈ m := by
  induction m with
  | nil => exact Or.inl (by simpa [Memory.insert] using h)
  | cons d m ih =>
    unfold Memory.insert at h
    split at h <;> grind

theorem Memory.insert_wf {m : Memory} (h : Memory.Wf m) {a : Nat} (ha : ∀ c ∈ m, c.1 ≠ a) {v : Byte} (hv : v ≠ 0#8) :
    Memory.Wf (Memory.insert m a v) := by
  induction m with
  | nil => simp [Memory.insert, Memory.Wf, hv]
  | cons d m ih =>
    have hd := List.pairwise_cons.mp h.1
    have ih := ih ⟨hd.2, fun c hc => h.2 c (by simp [hc])⟩ fun c hc => ha c (by simp [hc])
    have hda := ha d (by simp)
    unfold Memory.insert
    split
    · refine ⟨List.pairwise_cons.mpr ⟨fun c hc => ?_, h.1⟩, fun c hc => ?_⟩ <;> grind
    · refine ⟨List.pairwise_cons.mpr ⟨fun c hc => ?_, ih.1⟩, fun c hc => ?_⟩
      · rcases Memory.mem_insert hc with rfl | hc
        · show d.1 < a; omega
        · exact hd.1 c hc
      · rcases List.mem_cons.mp hc with rfl | hc
        · exact h.2 c (by simp)
        · exact ih.2 c hc

/-- Writing a byte keeps the canonical form. -/
theorem Memory.set_wf {m : Memory} (h : Memory.Wf m) (a : Nat) (v : Byte) : Memory.Wf (Memory.set m a v) := by
  unfold Memory.set
  split
  · exact Memory.erase_wf h a
  · exact Memory.insert_wf (Memory.erase_wf h a) (Memory.erase_unlisted m a) ‹_›

/-- Writing a byte below the capacity keeps every cell below it. -/
theorem Memory.set_below {m : Memory} {n : Nat} (h : Memory.Below m n) {a : Nat} (ha : a < n) (v : Byte) :
    Memory.Below (Memory.set m a v) n := by
  intro c hc
  unfold Memory.set at hc
  split at hc
  · exact h c (List.mem_filter.mp hc).1
  · rcases Memory.mem_insert hc with rfl | hc
    · exact ha
    · exact h c (List.mem_filter.mp hc).1

/-! ## Several bytes, little-endian (R42 to R44) -/

theorem Memory.readLE_one (m : Memory) (a : Nat) : Memory.readLE m a 1 = Memory.byte m a := by
  apply BitVec.eq_of_getLsbD_eq
  intro i hi
  simp only [Memory.readLE, BitVec.getLsbD_append]
  grind

theorem Memory.readLE_two (m : Memory) (a : Nat) :
    Memory.readLE m a 2 = Memory.byte m (a + 1) ++ Memory.byte m a := by
  apply BitVec.eq_of_getLsbD_eq
  intro i hi
  simp only [Memory.readLE, BitVec.getLsbD_append]
  grind

/-- The word at `a`: mem[a+3] ++ mem[a+2] ++ mem[a+1] ++ mem[a] (R43). -/
theorem Memory.readLE_four (m : Memory) (a : Nat) :
    Memory.readLE m a 4 = Memory.byte m (a + 3) ++ Memory.byte m (a + 2) ++ Memory.byte m (a + 1) ++ Memory.byte m a := by
  apply BitVec.eq_of_getLsbD_eq
  intro i hi
  simp only [Memory.readLE, BitVec.getLsbD_append]
  grind

/-- Byte `i` of what is read is the byte at `a + i`. -/
theorem Memory.readLE_byte (m : Memory) (a n i : Nat) (h : i < n) :
    (Memory.readLE m a n).extractLsb' (8 * i) 8 = Memory.byte m (a + i) := by
  induction n generalizing a i with
  | zero => omega
  | succ n ih =>
    apply BitVec.eq_of_getLsbD_eq
    intro k hk
    cases i with
    | zero =>
      simp only [Memory.readLE, BitVec.getLsbD_extractLsb', BitVec.getLsbD_append]
      grind
    | succ i =>
      have e := congrArg (fun v : Byte => v.getLsbD k) (ih (a + 1) i (by omega))
      simp only [BitVec.getLsbD_extractLsb', hk, decide_true, Bool.true_and] at e
      have ha : a + (i + 1) = a + 1 + i := by omega
      rw [ha, ← e]
      simp only [Memory.readLE, BitVec.getLsbD_extractLsb', BitVec.getLsbD_append, hk, decide_true, Bool.true_and]
      have h8 : ¬(8 * (i + 1) + k < 8) := by omega
      have h9 : 8 * (i + 1) + k - 8 = 8 * i + k := by omega
      simp [h8, h9]

/-- Every byte after `n` bytes of `v` were written at `a`. -/
theorem Memory.writeLE_byte (m : Memory) (a n : Nat) (v : BitVec (8 * n)) (b : Nat) :
    Memory.byte (Memory.writeLE m a n v) b =
      if a ≤ b ∧ b < a + n then v.extractLsb' (8 * (b - a)) 8 else Memory.byte m b := by
  induction n generalizing m a with
  | zero => grind [Memory.writeLE]
  | succ n ih =>
    rw [Memory.writeLE, ih, Memory.byte_set]
    by_cases h1 : a + 1 ≤ b ∧ b < a + 1 + n
    · have h2 : a ≤ b ∧ b < a + (n + 1) := by omega
      rw [if_pos h1, if_pos h2]
      apply BitVec.eq_of_getLsbD_eq
      intro k hk
      have hlt : 8 * (b - (a + 1)) + k < 8 * n := by omega
      have he : 8 + (8 * (b - (a + 1)) + k) = 8 * (b - a) + k := by omega
      simp [hk, hlt, he]
    · rw [if_neg h1]
      by_cases h2 : b = a
      · have h3 : a ≤ b ∧ b < a + (n + 1) := by omega
        rw [if_pos h2, if_pos h3, h2]; simp
      · have h3 : ¬(a ≤ b ∧ b < a + (n + 1)) := by omega
        rw [if_neg h2, if_neg h3]

/-- A write leaves every byte outside `[a, a + n)` alone (R44). -/
theorem Memory.writeLE_outside (m : Memory) (a n : Nat) (v : BitVec (8 * n)) {b : Nat} (h : b < a ∨ a + n ≤ b) :
    Memory.byte (Memory.writeLE m a n v) b = Memory.byte m b := by
  rw [Memory.writeLE_byte, if_neg (by omega)]

/-- Byte `a + i` of a write is byte `i` of the value (R44). -/
theorem Memory.writeLE_inside (m : Memory) (a n : Nat) (v : BitVec (8 * n)) {i : Nat} (h : i < n) :
    Memory.byte (Memory.writeLE m a n v) (a + i) = v.extractLsb' (8 * i) 8 := by
  have e : a + i - a = i := by omega
  rw [Memory.writeLE_byte, if_pos (by omega), e]

/-- Reading what was just written gives it back (R43, R44). -/
theorem Memory.readLE_writeLE (m : Memory) (a n : Nat) (v : BitVec (8 * n)) :
    Memory.readLE (Memory.writeLE m a n v) a n = v := by
  apply BitVec.eq_of_getLsbD_eq
  intro i hi
  have h := Memory.readLE_byte (Memory.writeLE m a n v) a n (i / 8) (by omega)
  rw [Memory.writeLE_inside _ _ _ _ (by omega)] at h
  have h' := congrArg (fun x : BitVec 8 => x.getLsbD (i % 8)) h
  have e : 8 * (i / 8) + i % 8 = i := by omega
  have hlt : i % 8 < 8 := by omega
  simp only [BitVec.getLsbD_extractLsb', e, hlt, decide_true, Bool.true_and] at h'
  exact h'

/-- Writing keeps the canonical form. -/
theorem Memory.writeLE_wf {m : Memory} (h : Memory.Wf m) (a n : Nat) (v : BitVec (8 * n)) :
    Memory.Wf (Memory.writeLE m a n v) := by
  induction n generalizing m a with
  | zero => exact h
  | succ n ih => exact ih (Memory.set_wf h a _) (a + 1) _

/-- Writing inside the capacity keeps every cell below it. -/
theorem Memory.writeLE_below {m : Memory} {k : Nat} (h : Memory.Below m k) {a n : Nat} (ha : a + n ≤ k)
    (v : BitVec (8 * n)) : Memory.Below (Memory.writeLE m a n v) k := by
  induction n generalizing m a with
  | zero => exact h
  | succ n ih => exact ih (Memory.set_below h (by omega) _) (by omega) _

/-! ## A memory made of bytes -/

theorem Memory.ofBytes_mem {a : Nat} {bs : List Byte} {c : Host.Cell} (h : c ∈ Memory.ofBytes a bs) :
    a ≤ c.1 ∧ c.1 < a + bs.length ∧ c.2 ≠ 0#8 := by
  induction bs generalizing a with
  | nil => simp [Memory.ofBytes] at h
  | cons b bs ih =>
    unfold Memory.ofBytes at h
    split at h
    · obtain ⟨h1, h2, h3⟩ := ih h
      exact ⟨by omega, by simp only [List.length_cons]; omega, h3⟩
    · rcases List.mem_cons.mp h with rfl | h
      · exact ⟨Nat.le_refl _, by simp, ‹_›⟩
      · obtain ⟨h1, h2, h3⟩ := ih h
        exact ⟨by omega, by simp only [List.length_cons]; omega, h3⟩

/-- The bytes of an image are a canonical memory. -/
theorem Memory.ofBytes_wf (a : Nat) (bs : List Byte) : Memory.Wf (Memory.ofBytes a bs) := by
  refine ⟨?_, fun c hc => (Memory.ofBytes_mem hc).2.2⟩
  induction bs generalizing a with
  | nil => simp [Memory.ofBytes]
  | cons b bs ih =>
    unfold Memory.ofBytes
    split
    · exact ih (a + 1)
    · exact List.pairwise_cons.mpr ⟨fun c hc => by have := Memory.ofBytes_mem hc; show a < c.1; omega, ih (a + 1)⟩

theorem Memory.ofBytes_below (a : Nat) (bs : List Byte) : Memory.Below (Memory.ofBytes a bs) (a + bs.length) :=
  fun _ hc => (Memory.ofBytes_mem hc).2.1

/-- A byte of a memory made of bytes: the byte at that place, 0 outside. -/
theorem Memory.ofBytes_byte (a : Nat) (bs : List Byte) (b : Nat) :
    Memory.byte (Memory.ofBytes a bs) b = if a ≤ b then bs.getD (b - a) 0#8 else 0#8 := by
  induction bs generalizing a with
  | nil => simp [Memory.ofBytes]
  | cons c bs ih =>
    by_cases hb : b < a
    · rw [if_neg (by omega)]
      exact Memory.byte_unlisted fun d hd => by have := Memory.ofBytes_mem hd; omega
    · rw [if_pos (by omega)]
      by_cases he : b = a
      · subst he
        unfold Memory.ofBytes
        split
        · rw [ih, if_neg (by omega)]; simp_all
        · simp
      · have e : b - a = (b - (a + 1)) + 1 := by omega
        unfold Memory.ofBytes
        split
        · rw [ih, if_pos (by omega), e]; simp
        · rw [Memory.byte_cons, if_neg (fun h => he h.symm), ih, if_pos (by omega), e]; simp

end Sys2Proof.Machine
end

