-- ==== Sys2Proof/Laws/State.lean ====
section
/-! SUPPORT. What each state update leaves in each field, so that no proof unfolds a record update; and what reading a
register gives after each of them. -/

namespace Sys2Proof.Machine

/-! ## setX -/

@[simp] theorem State.setX_pc (s : State) (r : Reg) (v : Word) : (s.setX r v).pc = s.pc := by
  unfold State.setX; split <;> rfl
@[simp] theorem State.setX_status (s : State) (r : Reg) (v : Word) : (s.setX r v).status = s.status := by
  unfold State.setX; split <;> rfl
@[simp] theorem State.setX_steps (s : State) (r : Reg) (v : Word) : (s.setX r v).steps = s.steps := by
  unfold State.setX; split <;> rfl
@[simp] theorem State.setX_image (s : State) (r : Reg) (v : Word) : (s.setX r v).image = s.image := by
  unfold State.setX; split <;> rfl
@[simp] theorem State.setX_mem (s : State) (r : Reg) (v : Word) : (s.setX r v).mem = s.mem := by
  unfold State.setX; split <;> rfl
@[simp] theorem State.setX_log (s : State) (r : Reg) (v : Word) : (s.setX r v).log = s.log := by
  unfold State.setX; split <;> rfl
@[simp] theorem State.setX_config (s : State) (r : Reg) (v : Word) : (s.setX r v).config = s.config := by
  unfold State.setX; split <;> rfl
@[simp] theorem State.setX_calls (s : State) (r : Reg) (v : Word) : (s.setX r v).calls = s.calls := by
  unfold State.setX; split <;> rfl
@[simp] theorem State.setX_replies (s : State) (r : Reg) (v : Word) : (s.setX r v).replies = s.replies := by
  unfold State.setX; split <;> rfl
@[simp] theorem State.setX_imageEnd (s : State) (r : Reg) (v : Word) : (s.setX r v).imageEnd = s.imageEnd := by
  simp [State.imageEnd]

/-! ## setMem -/

@[simp] theorem State.setMem_xregs (s : State) (m : Memory) : (s.setMem m).xregs = s.xregs := rfl
@[simp] theorem State.setMem_pc (s : State) (m : Memory) : (s.setMem m).pc = s.pc := rfl
@[simp] theorem State.setMem_status (s : State) (m : Memory) : (s.setMem m).status = s.status := rfl
@[simp] theorem State.setMem_steps (s : State) (m : Memory) : (s.setMem m).steps = s.steps := rfl
@[simp] theorem State.setMem_image (s : State) (m : Memory) : (s.setMem m).image = s.image := rfl
@[simp] theorem State.setMem_mem (s : State) (m : Memory) : (s.setMem m).mem = m := rfl
@[simp] theorem State.setMem_log (s : State) (m : Memory) : (s.setMem m).log = s.log := rfl
@[simp] theorem State.setMem_config (s : State) (m : Memory) : (s.setMem m).config = s.config := rfl
@[simp] theorem State.setMem_calls (s : State) (m : Memory) : (s.setMem m).calls = s.calls := rfl
@[simp] theorem State.setMem_replies (s : State) (m : Memory) : (s.setMem m).replies = s.replies := rfl
@[simp] theorem State.setMem_x (s : State) (m : Memory) (q : Reg) : (s.setMem m).x q = s.x q := rfl
@[simp] theorem State.setMem_imageEnd (s : State) (m : Memory) : (s.setMem m).imageEnd = s.imageEnd := rfl

/-! ## retireTo -/

@[simp] theorem State.retireTo_xregs (s : State) (target : Word) : (s.retireTo target).xregs = s.xregs := rfl
@[simp] theorem State.retireTo_pc (s : State) (target : Word) : (s.retireTo target).pc = target := rfl
@[simp] theorem State.retireTo_status (s : State) (target : Word) : (s.retireTo target).status = s.status := rfl
@[simp] theorem State.retireTo_steps (s : State) (target : Word) : (s.retireTo target).steps = s.steps + 1 := rfl
@[simp] theorem State.retireTo_image (s : State) (target : Word) : (s.retireTo target).image = s.image := rfl
@[simp] theorem State.retireTo_mem (s : State) (target : Word) : (s.retireTo target).mem = s.mem := rfl
@[simp] theorem State.retireTo_log (s : State) (target : Word) : (s.retireTo target).log = s.log := rfl
@[simp] theorem State.retireTo_config (s : State) (target : Word) : (s.retireTo target).config = s.config := rfl
@[simp] theorem State.retireTo_calls (s : State) (target : Word) : (s.retireTo target).calls = s.calls := rfl
@[simp] theorem State.retireTo_replies (s : State) (target : Word) : (s.retireTo target).replies = s.replies := rfl
@[simp] theorem State.retireTo_x (s : State) (target : Word) (q : Reg) : (s.retireTo target).x q = s.x q := rfl
@[simp] theorem State.retireTo_imageEnd (s : State) (target : Word) : (s.retireTo target).imageEnd = s.imageEnd := rfl

/-! ## retire -/

@[simp] theorem State.retire_xregs (s : State) : (s.retire).xregs = s.xregs := rfl
@[simp] theorem State.retire_pc (s : State) : (s.retire).pc = s.pc + 4#32 := rfl
@[simp] theorem State.retire_status (s : State) : (s.retire).status = s.status := rfl
@[simp] theorem State.retire_steps (s : State) : (s.retire).steps = s.steps + 1 := rfl
@[simp] theorem State.retire_image (s : State) : (s.retire).image = s.image := rfl
@[simp] theorem State.retire_mem (s : State) : (s.retire).mem = s.mem := rfl
@[simp] theorem State.retire_log (s : State) : (s.retire).log = s.log := rfl
@[simp] theorem State.retire_config (s : State) : (s.retire).config = s.config := rfl
@[simp] theorem State.retire_calls (s : State) : (s.retire).calls = s.calls := rfl
@[simp] theorem State.retire_replies (s : State) : (s.retire).replies = s.replies := rfl
@[simp] theorem State.retire_x (s : State) (q : Reg) : (s.retire).x q = s.x q := rfl
@[simp] theorem State.retire_imageEnd (s : State) : (s.retire).imageEnd = s.imageEnd := rfl

/-! ## takeTrap -/

@[simp] theorem State.takeTrap_xregs (s : State) (c : TrapCause) : (s.takeTrap c).xregs = s.xregs := rfl
@[simp] theorem State.takeTrap_pc (s : State) (c : TrapCause) : (s.takeTrap c).pc = s.pc := rfl
@[simp] theorem State.takeTrap_status (s : State) (c : TrapCause) : (s.takeTrap c).status = .trapped c := rfl
@[simp] theorem State.takeTrap_steps (s : State) (c : TrapCause) : (s.takeTrap c).steps = s.steps := rfl
@[simp] theorem State.takeTrap_image (s : State) (c : TrapCause) : (s.takeTrap c).image = s.image := rfl
@[simp] theorem State.takeTrap_mem (s : State) (c : TrapCause) : (s.takeTrap c).mem = s.mem := rfl
@[simp] theorem State.takeTrap_log (s : State) (c : TrapCause) : (s.takeTrap c).log = s.log ++ [.trap c s.pc] := rfl
@[simp] theorem State.takeTrap_config (s : State) (c : TrapCause) : (s.takeTrap c).config = s.config := rfl
@[simp] theorem State.takeTrap_calls (s : State) (c : TrapCause) : (s.takeTrap c).calls = s.calls := rfl
@[simp] theorem State.takeTrap_replies (s : State) (c : TrapCause) : (s.takeTrap c).replies = s.replies := rfl
@[simp] theorem State.takeTrap_x (s : State) (c : TrapCause) (q : Reg) : (s.takeTrap c).x q = s.x q := rfl
@[simp] theorem State.takeTrap_imageEnd (s : State) (c : TrapCause) : (s.takeTrap c).imageEnd = s.imageEnd := rfl

/-! ## haltWith -/

@[simp] theorem State.haltWith_xregs (s : State) (r : HaltReason) : (s.haltWith r).xregs = s.xregs := rfl
@[simp] theorem State.haltWith_pc (s : State) (r : HaltReason) : (s.haltWith r).pc = s.pc := rfl
@[simp] theorem State.haltWith_status (s : State) (r : HaltReason) : (s.haltWith r).status = .halted r := rfl
@[simp] theorem State.haltWith_steps (s : State) (r : HaltReason) : (s.haltWith r).steps = s.steps := rfl
@[simp] theorem State.haltWith_image (s : State) (r : HaltReason) : (s.haltWith r).image = s.image := rfl
@[simp] theorem State.haltWith_mem (s : State) (r : HaltReason) : (s.haltWith r).mem = s.mem := rfl
@[simp] theorem State.haltWith_log (s : State) (r : HaltReason) : (s.haltWith r).log = s.log := rfl
@[simp] theorem State.haltWith_config (s : State) (r : HaltReason) : (s.haltWith r).config = s.config := rfl
@[simp] theorem State.haltWith_calls (s : State) (r : HaltReason) : (s.haltWith r).calls = s.calls := rfl
@[simp] theorem State.haltWith_replies (s : State) (r : HaltReason) : (s.haltWith r).replies = s.replies := rfl
@[simp] theorem State.haltWith_x (s : State) (r : HaltReason) (q : Reg) : (s.haltWith r).x q = s.x q := rfl
@[simp] theorem State.haltWith_imageEnd (s : State) (r : HaltReason) : (s.haltWith r).imageEnd = s.imageEnd := rfl

/-! ## haltAtLimit -/

@[simp] theorem State.haltAtLimit_xregs (s : State) : (s.haltAtLimit).xregs = s.xregs := rfl
@[simp] theorem State.haltAtLimit_pc (s : State) : (s.haltAtLimit).pc = s.pc := rfl
@[simp] theorem State.haltAtLimit_status (s : State) : (s.haltAtLimit).status = .halted .stepLimitExceeded := rfl
@[simp] theorem State.haltAtLimit_steps (s : State) : (s.haltAtLimit).steps = s.steps := rfl
@[simp] theorem State.haltAtLimit_image (s : State) : (s.haltAtLimit).image = s.image := rfl
@[simp] theorem State.haltAtLimit_mem (s : State) : (s.haltAtLimit).mem = s.mem := rfl
@[simp] theorem State.haltAtLimit_log (s : State) : (s.haltAtLimit).log = s.log ++ [.stepLimit s.pc] := rfl
@[simp] theorem State.haltAtLimit_config (s : State) : (s.haltAtLimit).config = s.config := rfl
@[simp] theorem State.haltAtLimit_calls (s : State) : (s.haltAtLimit).calls = s.calls := rfl
@[simp] theorem State.haltAtLimit_replies (s : State) : (s.haltAtLimit).replies = s.replies := rfl
@[simp] theorem State.haltAtLimit_x (s : State) (q : Reg) : (s.haltAtLimit).x q = s.x q := rfl
@[simp] theorem State.haltAtLimit_imageEnd (s : State) : (s.haltAtLimit).imageEnd = s.imageEnd := rfl

/-! ## reply -/

@[simp] theorem State.reply_xregs (s : State) (r : Reply) : (s.reply r).xregs = s.xregs := rfl
@[simp] theorem State.reply_pc (s : State) (r : Reply) : (s.reply r).pc = s.pc := rfl
@[simp] theorem State.reply_status (s : State) (r : Reply) : (s.reply r).status = s.status := rfl
@[simp] theorem State.reply_steps (s : State) (r : Reply) : (s.reply r).steps = s.steps := rfl
@[simp] theorem State.reply_image (s : State) (r : Reply) : (s.reply r).image = s.image := rfl
@[simp] theorem State.reply_mem (s : State) (r : Reply) : (s.reply r).mem = s.mem := rfl
@[simp] theorem State.reply_log (s : State) (r : Reply) : (s.reply r).log = s.log := rfl
@[simp] theorem State.reply_config (s : State) (r : Reply) : (s.reply r).config = s.config := rfl
@[simp] theorem State.reply_calls (s : State) (r : Reply) : (s.reply r).calls = s.calls := rfl
@[simp] theorem State.reply_replies (s : State) (r : Reply) : (s.reply r).replies = s.replies ++ [r] := rfl
@[simp] theorem State.reply_x (s : State) (r : Reply) (q : Reg) : (s.reply r).x q = s.x q := rfl
@[simp] theorem State.reply_imageEnd (s : State) (r : Reply) : (s.reply r).imageEnd = s.imageEnd := rfl

/-! ## withLog -/

@[simp] theorem State.withLog_xregs (s : State) (l : List LogEntry) : (s.withLog l).xregs = s.xregs := rfl
@[simp] theorem State.withLog_pc (s : State) (l : List LogEntry) : (s.withLog l).pc = s.pc := rfl
@[simp] theorem State.withLog_status (s : State) (l : List LogEntry) : (s.withLog l).status = s.status := rfl
@[simp] theorem State.withLog_steps (s : State) (l : List LogEntry) : (s.withLog l).steps = s.steps := rfl
@[simp] theorem State.withLog_image (s : State) (l : List LogEntry) : (s.withLog l).image = s.image := rfl
@[simp] theorem State.withLog_mem (s : State) (l : List LogEntry) : (s.withLog l).mem = s.mem := rfl
@[simp] theorem State.withLog_config (s : State) (l : List LogEntry) : (s.withLog l).config = s.config := rfl
@[simp] theorem State.withLog_calls (s : State) (l : List LogEntry) : (s.withLog l).calls = s.calls := rfl
@[simp] theorem State.withLog_replies (s : State) (l : List LogEntry) : (s.withLog l).replies = s.replies := rfl
@[simp] theorem State.withLog_log (s : State) (l : List LogEntry) : (s.withLog l).log = l := rfl
@[simp] theorem State.withLog_self (s : State) : s.withLog s.log = s := rfl
@[simp] theorem State.withLog_x (s : State) (l : List LogEntry) (q : Reg) : (s.withLog l).x q = s.x q := rfl
@[simp] theorem State.withLog_imageEnd (s : State) (l : List LogEntry) : (s.withLog l).imageEnd = s.imageEnd := rfl
@[simp] theorem State.withLog_setX (s : State) (l : List LogEntry) (r : Reg) (v : Word) :
    (s.withLog l).setX r v = (s.setX r v).withLog l := by
  unfold State.setX; split <;> rfl
@[simp] theorem State.withLog_setMem (s : State) (l : List LogEntry) (m : Memory) :
    (s.withLog l).setMem m = (s.setMem m).withLog l := rfl
@[simp] theorem State.withLog_retireTo (s : State) (l : List LogEntry) (target : Word) :
    (s.withLog l).retireTo target = (s.retireTo target).withLog l := rfl
@[simp] theorem State.withLog_retire (s : State) (l : List LogEntry) :
    (s.withLog l).retire = s.retire.withLog l := rfl
@[simp] theorem State.withLog_haltWith (s : State) (l : List LogEntry) (r : HaltReason) :
    (s.withLog l).haltWith r = (s.haltWith r).withLog l := rfl
@[simp] theorem State.withLog_takeTrap (s : State) (l : List LogEntry) (c : TrapCause) :
    (s.withLog l).takeTrap c = (s.takeTrap c).withLog (l ++ [.trap c s.pc]) := rfl
@[simp] theorem State.withLog_haltAtLimit (s : State) (l : List LogEntry) :
    (s.withLog l).haltAtLimit = s.haltAtLimit.withLog (l ++ [.stepLimit s.pc]) := rfl

/-! ## Registers (R12) -/

@[simp] theorem State.x_zero (s : State) : s.x 0#5 = 0#32 := rfl

@[simp] theorem State.setX_zero (s : State) (v : Word) : s.setX 0#5 v = s := rfl

/-- A register file of zeros reads 0 everywhere. -/
theorem State.x_of_zeros {s : State} (h : s.xregs = Vector.replicate 31 0#32) (r : Reg) : s.x r = 0#32 := by
  unfold State.x; split
  · rfl
  · simp [h]

/-- Reading `q` after `r` was written: the value when `q` is `r` and not x0, else what it was. -/
theorem State.setX_x (s : State) (r q : Reg) (v : Word) :
    (s.setX r v).x q = if q = r ∧ r ≠ 0#5 then v else s.x q := by
  by_cases hr : r = 0#5
  · simp [hr]
  by_cases hq : q = 0#5
  · subst hq
    have : ¬(0#5 = r) := fun h => hr h.symm
    simp [this]
  have hr' : 0 < r.toNat := Nat.pos_of_ne_zero fun h => hr (BitVec.eq_of_toNat_eq h)
  have hq' : 0 < q.toNat := Nat.pos_of_ne_zero fun h => hq (BitVec.eq_of_toNat_eq h)
  have hrl := r.isLt
  have hql := q.isLt
  by_cases h : q = r
  · subst h
    simp [State.setX, State.x, hr]
  · have hne : r.toNat ≠ q.toNat := fun e => h (BitVec.eq_of_toNat_eq e.symm)
    simp only [State.setX, State.x, hr, hq, h, if_false, false_and]
    rw [Vector.getElem_set_ne]
    omega

@[simp] theorem State.setX_x_self (s : State) (r : Reg) (v : Word) :
    (s.setX r v).x r = if r = 0#5 then 0#32 else v := by
  rw [State.setX_x]
  by_cases h : r = 0#5 <;> simp [h]

theorem State.setX_x_other (s : State) {r q : Reg} (v : Word) (h : q ≠ r) : (s.setX r v).x q = s.x q := by
  rw [State.setX_x]; simp [h]

end Sys2Proof.Machine
end

