-- ==== Sys2Proof/Laws/Ops.lean ====
section
/-! SUPPORT. One lemma per shared operation that says everything it can do, the inversion of `exec` over all
instructions built from them, and the inversion of a step. Later proofs cite these instead of unfolding. -/

namespace Sys2Proof.Machine

/-! ## The shared operations -/

/-- A read succeeds exactly when it is aligned and inside the capacity, with the bytes of memory (R43). -/
theorem memRead_ok_iff {s : State} {addr : Word} {n : Nat} {v : BitVec (8 * n)} :
    memRead s addr n = .ok v ↔
      addr.toNat % n = 0 ∧ addr.toNat + n ≤ s.config.memSize ∧ v = Memory.readLE s.mem addr.toNat n := by
  unfold memRead
  by_cases h : addr.toNat % n ≠ 0
  · simp [h]
  by_cases h' : addr.toNat + n > s.config.memSize
  · simp only [h, h', if_true, if_false]; grind
  · simp only [h, h', if_false]; grind

/-- A write succeeds exactly when it is aligned and inside the capacity, with the bytes replaced (R44). -/
theorem memWrite_ok_iff {s : State} {addr : Word} {n : Nat} {v : BitVec (8 * n)} {m : Memory} :
    memWrite s addr n v = .ok m ↔
      addr.toNat % n = 0 ∧ addr.toNat + n ≤ s.config.memSize ∧ m = Memory.writeLE s.mem addr.toNat n v := by
  unfold memWrite
  by_cases h : addr.toNat % n ≠ 0
  · simp [h]
  by_cases h' : addr.toNat + n > s.config.memSize
  · simp only [h, h', if_true, if_false]; grind
  · simp only [h, h', if_false]; grind

/-- A fetch succeeds exactly when it is inside the image and aligned, with the word in memory (R48). -/
theorem fetch_ok_iff {s : State} {addr : Word} {w : Word} :
    fetch s addr = .ok w ↔
      addr.toNat < s.imageEnd ∧ addr.toNat % 4 = 0 ∧ w = Memory.readLE s.mem addr.toNat 4 := by
  unfold fetch
  split
  · simp; omega
  · simp; grind

/-- A load ends in one of two traps, or writes the register with the extended bytes (R170). -/
theorem loadInto_cases (rd : Reg) (addr : Word) (n : Nat) (extend : BitVec (8 * n) → Word) (s : State) :
    (addr.toNat % n ≠ 0 ∧ loadInto rd addr n extend s = .next (s.takeTrap (.misaligned .load addr))) ∨
      (addr.toNat % n = 0 ∧ s.config.memSize < addr.toNat + n ∧
        loadInto rd addr n extend s = .next (s.takeTrap (.outOfBounds .load addr))) ∨
      (addr.toNat % n = 0 ∧ addr.toNat + n ≤ s.config.memSize ∧
        loadInto rd addr n extend s = .next (s.setX rd (extend (Memory.readLE s.mem addr.toNat n))).retire) := by
  unfold loadInto memRead
  by_cases h : addr.toNat % n ≠ 0
  · simp [h]
  by_cases h' : addr.toNat + n > s.config.memSize
  · simp only [h, h', if_true, if_false]; grind
  · simp only [h, h', if_false, writeBack]; grind

/-- A store ends in one of two traps, or writes its bytes (R170). -/
theorem storeAt_cases (addr : Word) (n : Nat) (v : BitVec (8 * n)) (s : State) :
    (addr.toNat % n ≠ 0 ∧ storeAt addr n v s = .next (s.takeTrap (.misaligned .store addr))) ∨
      (addr.toNat % n = 0 ∧ s.config.memSize < addr.toNat + n ∧
        storeAt addr n v s = .next (s.takeTrap (.outOfBounds .store addr))) ∨
      (addr.toNat % n = 0 ∧ addr.toNat + n ≤ s.config.memSize ∧
        storeAt addr n v s = .next (s.setMem (Memory.writeLE s.mem addr.toNat n v)).retire) := by
  unfold storeAt memWrite
  by_cases h : addr.toNat % n ≠ 0
  · simp [h]
  by_cases h' : addr.toNat + n > s.config.memSize
  · simp only [h, h', if_true, if_false]; grind
  · simp only [h, h', if_false]; grind

/-- A jump traps on a misaligned target, or writes the link and goes there (R150). -/
theorem jumpAndLink_cases (rd : Reg) (target : Word) (s : State) :
    (target.toNat % 4 ≠ 0 ∧ jumpAndLink rd target s = .next (s.takeTrap (.misaligned .jump target))) ∨
      (target.toNat % 4 = 0 ∧ jumpAndLink rd target s = .next ((s.setX rd (s.pc + 4#32)).retireTo target)) := by
  unfold jumpAndLink
  split
  · exact .inl ⟨‹_›, rfl⟩
  · exact .inr ⟨by omega, rfl⟩

/-- A branch goes on, or, when taken, traps on a misaligned target or goes there (R150). -/
theorem branchIf_cases (taken : Bool) (target : Word) (s : State) :
    (taken = false ∧ branchIf taken target s = .next s.retire) ∨
      (taken = true ∧ target.toNat % 4 ≠ 0 ∧
        branchIf taken target s = .next (s.takeTrap (.misaligned .jump target))) ∨
      (taken = true ∧ target.toNat % 4 = 0 ∧ branchIf taken target s = .next (s.retireTo target)) := by
  unfold branchIf
  cases taken
  · exact .inl ⟨rfl, rfl⟩
  · by_cases h : target.toNat % 4 ≠ 0
    · exact .inr (.inl ⟨rfl, h, by simp [h]⟩)
    · exact .inr (.inr ⟨rfl, by omega, by simp [h]⟩)

/-! ## What an instruction can do -/

/-- Where control may go after an instruction retires (R16). -/
def NextPc (i : Instr) (s : State) (target : Word) : Prop :=
  target = s.pc + 4#32 ∨ (transferTarget i s = some target ∧ target.toNat % 4 = 0)

/-- The five ways an instruction ends: a register written, nothing written, bytes stored, a voluntary halt, a trap. -/
def Ends (i : Instr) (s t : State) : Prop :=
  (∃ rd v target, destination i = some rd ∧ storeRange i s = none ∧ NextPc i s target ∧
      t = (s.setX rd v).retireTo target) ∨
    (∃ target, storeRange i s = none ∧ NextPc i s target ∧ t = s.retireTo target) ∨
    (∃ a n v, storeRange i s = some (a, n) ∧ a + n ≤ s.config.memSize ∧
      t = (s.setMem (Memory.writeLE s.mem a n v)).retire) ∨
    ((i = .ecall ∧ t = s.haltWith .exit) ∨ (i = .ebreak ∧ t = s.haltWith .breakpoint)) ∨
    ∃ c, t = s.takeTrap c

theorem writeBack_ends {i : Instr} {s : State} {rd : Reg} (v : Word) (hd : destination i = some rd)
    (hs : storeRange i s = none) : ∃ t, writeBack rd v s = .next t ∧ Ends i s t := by
  refine ⟨_, rfl, .inl ⟨rd, v, s.pc + 4#32, hd, hs, .inl rfl, ?_⟩⟩
  simp [State.retire]

theorem loadInto_ends {i : Instr} {s : State} {rd : Reg} (addr : Word) (n : Nat) (extend : BitVec (8 * n) → Word)
    (hd : destination i = some rd) (hs : storeRange i s = none) :
    ∃ t, loadInto rd addr n extend s = .next t ∧ Ends i s t := by
  rcases loadInto_cases rd addr n extend s with ⟨_, h⟩ | ⟨_, _, h⟩ | ⟨_, _, h⟩
  · exact ⟨_, h, .inr (.inr (.inr (.inr ⟨_, rfl⟩)))⟩
  · exact ⟨_, h, .inr (.inr (.inr (.inr ⟨_, rfl⟩)))⟩
  · exact ⟨_, h, .inl ⟨rd, extend (Memory.readLE s.mem addr.toNat n), s.pc + 4#32, hd, hs, .inl rfl,
      by simp only [State.retire, State.setX_pc]⟩⟩

theorem storeAt_ends {i : Instr} {s : State} (addr : Word) (n : Nat) (v : BitVec (8 * n))
    (hs : storeRange i s = some (addr.toNat, n)) : ∃ t, storeAt addr n v s = .next t ∧ Ends i s t := by
  rcases storeAt_cases addr n v s with ⟨_, h⟩ | ⟨_, _, h⟩ | ⟨_, hb, h⟩
  · exact ⟨_, h, .inr (.inr (.inr (.inr ⟨_, rfl⟩)))⟩
  · exact ⟨_, h, .inr (.inr (.inr (.inr ⟨_, rfl⟩)))⟩
  · exact ⟨_, h, .inr (.inr (.inl ⟨_, _, _, hs, hb, rfl⟩))⟩

theorem jumpAndLink_ends {i : Instr} {s : State} {rd : Reg} {target : Word} (hd : destination i = some rd)
    (hs : storeRange i s = none) (ht : transferTarget i s = some target) :
    ∃ t, jumpAndLink rd target s = .next t ∧ Ends i s t := by
  rcases jumpAndLink_cases rd target s with ⟨_, h⟩ | ⟨ha, h⟩
  · exact ⟨_, h, .inr (.inr (.inr (.inr ⟨_, rfl⟩)))⟩
  · exact ⟨_, h, .inl ⟨rd, _, target, hd, hs, .inr ⟨ht, ha⟩, rfl⟩⟩

theorem branchIf_ends {i : Instr} {s : State} {target : Word} (taken : Bool) (hs : storeRange i s = none)
    (ht : transferTarget i s = some target) : ∃ t, branchIf taken target s = .next t ∧ Ends i s t := by
  rcases branchIf_cases taken target s with ⟨_, h⟩ | ⟨_, _, h⟩ | ⟨_, ha, h⟩
  · exact ⟨_, h, .inr (.inl ⟨_, hs, .inl rfl, rfl⟩)⟩
  · exact ⟨_, h, .inr (.inr (.inr (.inr ⟨_, rfl⟩)))⟩
  · exact ⟨_, h, .inr (.inl ⟨target, hs, .inr ⟨ht, ha⟩, rfl⟩)⟩

/-- Every instruction answers a next state, in one of the five ways. -/
theorem exec_ends (i : Instr) (s : State) : ∃ t, exec i s = .next t ∧ Ends i s t := by
  cases i with
  | lui rd imm => exact writeBack_ends _ rfl rfl
  | auipc rd imm => exact writeBack_ends _ rfl rfl
  | jal rd off => exact jumpAndLink_ends rfl rfl rfl
  | jalr rd rs1 imm => exact jumpAndLink_ends rfl rfl rfl
  | beq a b off => exact branchIf_ends _ rfl rfl
  | bne a b off => exact branchIf_ends _ rfl rfl
  | blt a b off => exact branchIf_ends _ rfl rfl
  | bge a b off => exact branchIf_ends _ rfl rfl
  | bltu a b off => exact branchIf_ends _ rfl rfl
  | bgeu a b off => exact branchIf_ends _ rfl rfl
  | lb rd rs1 imm => exact loadInto_ends _ _ _ rfl rfl
  | lh rd rs1 imm => exact loadInto_ends _ _ _ rfl rfl
  | lw rd rs1 imm => exact loadInto_ends _ _ _ rfl rfl
  | lbu rd rs1 imm => exact loadInto_ends _ _ _ rfl rfl
  | lhu rd rs1 imm => exact loadInto_ends _ _ _ rfl rfl
  | sb rs2 rs1 imm => exact storeAt_ends _ 1 _ rfl
  | sh rs2 rs1 imm => exact storeAt_ends _ 2 _ rfl
  | sw rs2 rs1 imm => exact storeAt_ends _ 4 _ rfl
  | addi rd rs1 imm => exact writeBack_ends _ rfl rfl
  | slti rd rs1 imm => exact writeBack_ends _ rfl rfl
  | sltiu rd rs1 imm => exact writeBack_ends _ rfl rfl
  | xori rd rs1 imm => exact writeBack_ends _ rfl rfl
  | ori rd rs1 imm => exact writeBack_ends _ rfl rfl
  | andi rd rs1 imm => exact writeBack_ends _ rfl rfl
  | slli rd rs1 sh => exact writeBack_ends _ rfl rfl
  | srli rd rs1 sh => exact writeBack_ends _ rfl rfl
  | srai rd rs1 sh => exact writeBack_ends _ rfl rfl
  | add rd a b => exact writeBack_ends _ rfl rfl
  | sub rd a b => exact writeBack_ends _ rfl rfl
  | sll rd a b => exact writeBack_ends _ rfl rfl
  | slt rd a b => exact writeBack_ends _ rfl rfl
  | sltu rd a b => exact writeBack_ends _ rfl rfl
  | xor rd a b => exact writeBack_ends _ rfl rfl
  | srl rd a b => exact writeBack_ends _ rfl rfl
  | sra rd a b => exact writeBack_ends _ rfl rfl
  | or rd a b => exact writeBack_ends _ rfl rfl
  | and rd a b => exact writeBack_ends _ rfl rfl
  | fence fm pred succ rs1 rd => exact ⟨_, rfl, .inr (.inl ⟨_, rfl, .inl rfl, rfl⟩)⟩
  | ecall => exact ⟨_, rfl, .inr (.inr (.inr (.inl (.inl ⟨rfl, rfl⟩))))⟩
  | ebreak => exact ⟨_, rfl, .inr (.inr (.inr (.inl (.inr ⟨rfl, rfl⟩))))⟩

/-- The inversion of `exec`: if it answers `t`, then `t` is one of the five ends. -/
theorem exec_inv {i : Instr} {s t : State} (h : exec i s = .next t) : Ends i s t := by
  obtain ⟨u, hu, he⟩ := exec_ends i s
  rw [hu] at h
  cases h
  exact he

/-! ## What a step can do -/

/-- A step while Running: the halt at the bound, a trap, or the decoded instruction (R245, R246). -/
theorem step_running (s : State) (h : s.status = .running) :
    (s.config.maxSteps ≤ s.steps ∧ step s = .next s.haltAtLimit) ∨
      (s.steps < s.config.maxSteps ∧ ∃ c, step s = .next (s.takeTrap c)) ∨
      (s.steps < s.config.maxSteps ∧ ∃ w i, fetch s s.pc = .ok w ∧ decode w = .ok i ∧ step s = exec i s) := by
  rw [step, if_pos h, runLoop]
  by_cases hb : s.steps ≥ s.config.maxSteps
  · exact .inl ⟨hb, by rw [if_pos hb]⟩
  rw [if_neg hb, hartStep]
  have hb' : s.steps < s.config.maxSteps := by omega
  rcases hf : fetch s s.pc with c | w
  · exact .inr (.inl ⟨hb', c, rfl⟩)
  rcases hd : decode w with e | i
  · refine .inr (.inl ⟨hb', .illegalInstruction w, ?_⟩)
    simp only [hd]
  · refine .inr (.inr ⟨hb', w, i, rfl, hd, ?_⟩)
    simp only [hd]

/-- One more step of a run from a state whose step answers a next state. -/
theorem core_run_succ {s t : State} (k : Nat) (h : step s = .next t) :
    Sys2Proof.core.run (k + 1) s = Sys2Proof.core.run k t := by
  have h' : Sys2Proof.core.step s = .next t := h
  simp only [Host.Core.run, h']

/-- A step while not Running is the host's turn. -/
theorem step_host (s : State) (h : s.status ≠ .running) : step s = hostTurn s := by
  rw [step, if_neg h]

end Sys2Proof.Machine
end

