-- ==== Sys2Proof/Laws/Frames.lean ====
section
/-! SUPPORT. What the shared ways for an instruction to end leave in the terms of Safety.lean: one lemma each, so that
a claim about an instruction names its shared operation and the value, address or target it uses. -/

namespace Sys2Proof.Machine

theorem SameOutside.of_setX (s : State) (r : Reg) (v : Word) : SameOutside s (s.setX r v) := by
  simp [SameOutside]

theorem trapped_takeTrap (c : TrapCause) (s : State) : Trapped c s (s.takeTrap c) :=
  ⟨rfl, rfl, rfl, rfl, fun _ => rfl, fun _ => rfl, rfl, rfl, rfl, rfl⟩

theorem haltedFor_haltWith (r : HaltReason) (s : State) : HaltedFor r s (s.haltWith r) :=
  ⟨rfl, rfl, rfl, rfl, fun _ => rfl, fun _ => rfl, rfl, rfl, rfl, rfl⟩

theorem retiredTo_retireTo (target : Word) (s : State) : RetiredTo target s (s.retireTo target) :=
  ⟨rfl, rfl, rfl, rfl, rfl, rfl, rfl, rfl⟩

theorem retiredTo_setX (rd : Reg) (v target : Word) (s : State) :
    RetiredTo target s ((s.setX rd v).retireTo target) := by
  simp [RetiredTo, SameOutside]

theorem wroteReg_setX (rd : Reg) (v target : Word) (s : State) :
    WroteReg rd v s ((s.setX rd v).retireTo target) := by
  refine ⟨by simp, fun r hr => ?_, fun a => by simp⟩
  simp [State.setX_x_other s v hr]

theorem traps_of_takeTrap {i : Instr} {c : TrapCause} {s : State} (h : exec i s = .next (s.takeTrap c)) :
    Traps i c s :=
  ⟨_, h, trapped_takeTrap c s⟩

theorem goesTo_of_retireTo {i : Instr} {target : Word} {s : State} (h : exec i s = .next (s.retireTo target)) :
    GoesTo i target s :=
  ⟨_, h, fun _ => rfl, fun _ => rfl, retiredTo_retireTo target s⟩

/-- An instruction that is `writeBack`. -/
theorem writes_of_writeBack {i : Instr} {rd : Reg} {v : Word} {s : State} (h : exec i s = writeBack rd v s) :
    Writes i rd v s := by
  have e : (s.setX rd v).retire = (s.setX rd v).retireTo (s.pc + 4#32) := by simp [State.retire]
  exact ⟨_, h, e ▸ wroteReg_setX rd v _ s, e ▸ retiredTo_setX rd v _ s⟩

/-- An instruction that is `jumpAndLink`. -/
theorem linksTo_of_jumpAndLink {i : Instr} {rd : Reg} {target : Word} {s : State}
    (h : exec i s = jumpAndLink rd target s) (ha : target.toNat % 4 = 0) : LinksTo i rd target s := by
  rcases jumpAndLink_cases rd target s with ⟨hn, _⟩ | ⟨_, e⟩
  · exact absurd ha hn
  · exact ⟨_, h.trans e, wroteReg_setX rd _ _ s, retiredTo_setX rd _ _ s⟩

theorem traps_of_jumpAndLink {i : Instr} {rd : Reg} {target : Word} {s : State}
    (h : exec i s = jumpAndLink rd target s) (ha : target.toNat % 4 ≠ 0) : Traps i (.misaligned .jump target) s := by
  rcases jumpAndLink_cases rd target s with ⟨_, e⟩ | ⟨hn, _⟩
  · exact traps_of_takeTrap (h.trans e)
  · exact absurd hn ha

/-- An instruction that is `branchIf`. -/
theorem branchesOn_of_branchIf {i : Instr} {taken : Bool} {cond : Prop} {target : Word} {s : State}
    (h : exec i s = branchIf taken target s) (hc : taken = true ↔ cond) : BranchesOn i cond target s := by
  rcases branchIf_cases taken target s with ⟨ht, e⟩ | ⟨ht, ha, e⟩ | ⟨ht, ha, e⟩
  · have hn : ¬cond := by rw [← hc, ht]; exact Bool.false_ne_true
    exact ⟨fun c => absurd c hn, fun c => absurd c hn, fun _ => goesTo_of_retireTo (h.trans e)⟩
  · exact ⟨fun _ h0 => absurd h0 ha, fun _ _ => traps_of_takeTrap (h.trans e), fun hn => absurd (hc.mp ht) hn⟩
  · exact ⟨fun _ _ => goesTo_of_retireTo (h.trans e), fun _ h0 => absurd ha h0, fun hn => absurd (hc.mp ht) hn⟩

/-- An instruction that is `loadInto`, where the access succeeds and where each of its two checks fails. -/
theorem writes_of_loadInto {i : Instr} {rd : Reg} {addr : Word} {n : Nat} {extend : BitVec (8 * n) → Word} {s : State}
    (h : exec i s = loadInto rd addr n extend s) (ha : addr.toNat % n = 0) (hb : addr.toNat + n ≤ s.config.memSize) :
    Writes i rd (extend (Memory.readLE s.mem addr.toNat n)) s := by
  rcases loadInto_cases rd addr n extend s with ⟨hn, _⟩ | ⟨_, hn, _⟩ | ⟨_, _, e⟩
  · exact absurd ha hn
  · omega
  · exact writes_of_writeBack (h.trans e)

theorem loadInto_misaligned {i : Instr} {rd : Reg} {addr : Word} {n : Nat} {extend : BitVec (8 * n) → Word} {s : State}
    (h : exec i s = loadInto rd addr n extend s) (ha : addr.toNat % n ≠ 0) : Traps i (.misaligned .load addr) s := by
  rcases loadInto_cases rd addr n extend s with ⟨_, e⟩ | ⟨hn, _, _⟩ | ⟨hn, _, _⟩
  · exact traps_of_takeTrap (h.trans e)
  · exact absurd hn ha
  · exact absurd hn ha

theorem loadInto_outOfBounds {i : Instr} {rd : Reg} {addr : Word} {n : Nat} {extend : BitVec (8 * n) → Word} {s : State}
    (h : exec i s = loadInto rd addr n extend s) (ha : addr.toNat % n = 0) (hb : s.config.memSize < addr.toNat + n) :
    Traps i (.outOfBounds .load addr) s := by
  rcases loadInto_cases rd addr n extend s with ⟨hn, _⟩ | ⟨_, _, e⟩ | ⟨_, hn, _⟩
  · exact absurd ha hn
  · exact traps_of_takeTrap (h.trans e)
  · omega

/-- An instruction that is `storeAt`, likewise. -/
theorem storeAt_misaligned {i : Instr} {addr : Word} {n : Nat} {v : BitVec (8 * n)} {s : State}
    (h : exec i s = storeAt addr n v s) (ha : addr.toNat % n ≠ 0) : Traps i (.misaligned .store addr) s := by
  rcases storeAt_cases addr n v s with ⟨_, e⟩ | ⟨hn, _, _⟩ | ⟨hn, _, _⟩
  · exact traps_of_takeTrap (h.trans e)
  · exact absurd hn ha
  · exact absurd hn ha

theorem storeAt_outOfBounds {i : Instr} {addr : Word} {n : Nat} {v : BitVec (8 * n)} {s : State}
    (h : exec i s = storeAt addr n v s) (ha : addr.toNat % n = 0) (hb : s.config.memSize < addr.toNat + n) :
    Traps i (.outOfBounds .store addr) s := by
  rcases storeAt_cases addr n v s with ⟨hn, _⟩ | ⟨_, _, e⟩ | ⟨_, hn, _⟩
  · exact absurd ha hn
  · exact traps_of_takeTrap (h.trans e)
  · omega

theorem stores_of_storeAt {i : Instr} {addr : Word} {n : Nat} {v : BitVec (8 * n)} {w : Word} {s : State}
    (h : exec i s = storeAt addr n v s) (ha : addr.toNat % n = 0) (hb : addr.toNat + n ≤ s.config.memSize)
    (hw : ∀ j, j < n → v.extractLsb' (8 * j) 8 = w.extractLsb' (8 * j) 8) : Stores i addr.toNat n w s := by
  rcases storeAt_cases addr n v s with ⟨hn, _⟩ | ⟨_, hn, _⟩ | ⟨_, _, e⟩
  · exact absurd ha hn
  · omega
  · refine ⟨_, h.trans e, fun _ => rfl, ⟨fun b hb' => ?_, fun j hj => ?_⟩, rfl, rfl, rfl, rfl, rfl, rfl, rfl, rfl⟩
    · simpa using Memory.writeLE_outside _ _ _ _ hb'
    · rw [← hw j hj]; simpa using Memory.writeLE_inside _ _ _ _ hj

end Sys2Proof.Machine
end

