-- ==== Sys2Proof/Laws/HostCalls.lean ====
section
/-! SUPPORT. What a host call can do: one inversion lemma over the six calls, and the two ways the host's turn has no
next state. -/

namespace Sys2Proof.Machine

/-- The host's turn with a call to make. -/
theorem step_host_call {s : State} {c : HostCall} {cs : List HostCall} (h : s.status ≠ .running)
    (hc : s.calls = c :: cs) : step s = hostCall c { s with calls := cs } := by
  rw [step_host s h, hostTurn, hc]

/-- The host's turn with none. -/
theorem step_host_none {s : State} (h : s.status ≠ .running) (hc : s.calls = []) : step s = .fault .noStep := by
  rw [step_host s h, hostTurn, hc]

/-- What a host call leaves: a State reconstructed, an image loaded, a run started, or status, memory, IMAGE, registers,
pc and steps as they were. -/
inductive CallEnds : HostCall → State → State → Prop where
  | constructed (s : State) : CallEnds .construct s
      { State.reset with log := s.log, config := s.config, calls := s.calls, replies := s.replies }
  | loaded (text : List Char) (ws : List Word) (s : State) : assembleText text = .ok ws →
      4 * ws.length ≤ s.config.memSize → CallEnds (.assemble text) s (loadImage ws s)
  | failed (text : List Char) (e : AsmError) (s : State) : assembleText text = .error (.failed e) →
      CallEnds (.assemble text) s (State.reply { s with log := s.log ++ [.assembly e] } (.assemblyFailed e))
  | listed (s : State) : CallEnds .getText s (s.reply (.listing (listingFrom 0 s.image)))
  | started (s : State) : (s.status = .assembled ∨ ∃ r, s.status = .halted r) → CallEnds .run s (startRun s)
  | notStarted (s : State) : (s.status = .uninitialized ∨ s.status = .running ∨ ∃ c, s.status = .trapped c) →
      CallEnds .run s (s.reply .invalidState)
  | dumped (s : State) : CallEnds .getState s (s.reply (.dump s.status s.pc s.regList))
  | drained (s : State) : CallEnds .getLogs s (State.reply { s with log := [] } (.logs s.log))

/-- The inversion of a host call that answers a next state. -/
theorem hostCall_inv {c : HostCall} {s t : State} (h : hostCall c s = .next t) : CallEnds c s t := by
  cases c with
  | construct => cases h; exact .constructed s
  | getText => cases h; exact .listed s
  | getState => cases h; exact .dumped s
  | getLogs => cases h; exact .drained s
  | run =>
    simp only [hostCall, callRun] at h
    split at h <;> cases h
    · exact .started s (.inl ‹_›)
    · exact .started s (.inr ⟨_, ‹_›⟩)
    · exact .notStarted s (.inl ‹_›)
    · exact .notStarted s (.inr (.inl ‹_›))
    · exact .notStarted s (.inr (.inr ⟨_, ‹_›⟩))
  | assemble text =>
    simp only [hostCall, callAssemble] at h
    split at h
    · split at h
      · cases h; exact .loaded text _ s ‹_› ‹_›
      · cases h
    · cases h; exact .failed text _ s ‹_›
    · cases h

/-- A host call never faults, and refuses only the two texts to which the spec gives no meaning (R253, R101). -/
theorem hostCall_refused {c : HostCall} {s : State} {r : Refusal} (h : hostCall c s = .refused r) :
    ∃ text, c = .assemble text ∧
      ((∃ line, r = .directive line ∧ assembleText text = .error (.directive line)) ∨
        ∃ ws, r = .imageTooLarge ∧ assembleText text = .ok ws ∧ s.config.memSize < 4 * ws.length) := by
  cases c with
  | construct => cases h
  | getText => cases h
  | getState => cases h
  | getLogs => cases h
  | run => simp only [hostCall, callRun] at h; split at h <;> cases h
  | assemble text =>
    refine ⟨text, rfl, ?_⟩
    simp only [hostCall, callAssemble] at h
    split at h
    · split at h
      · cases h
      · cases h; exact .inr ⟨_, rfl, ‹_›, by omega⟩
    · cases h
    · cases h; exact .inl ⟨_, rfl, ‹_›⟩

theorem hostCall_no_fault (c : HostCall) (s : State) (f : Fault) : hostCall c s ≠ .fault f := by
  intro h
  cases c with
  | construct => cases h
  | getText => cases h
  | getState => cases h
  | getLogs => cases h
  | run => simp only [hostCall, callRun] at h; split at h <;> cases h
  | assemble text =>
    simp only [hostCall, callAssemble] at h
    split at h
    · split at h <;> cases h
    · cases h
    · cases h

end Sys2Proof.Machine
end

