-- ==== Sys2Proof/Laws/PerInstr.lean ====
section
/-! SUPPORT. One lemma per instruction, for claims about all of them as syntax: the word the encoder writes has the
fixed bits that the opcode map (30_encoding.md R82) prints for that instruction. -/

namespace Sys2Proof.Laws.FixedBits

/-- The instruction's mnemonic has a row in R82, and the encoder's word agrees with that row's mask and match. -/
def Statement (i : Instr) : Prop :=
  ∃ row ∈ opcodeRows, row.mnemonic = i.mnemonic ∧ row.Matches (encode i)

/-- A row that fixes the major opcode only. -/
theorem of_opcode {i : Instr} (m : Mnemonic) (p : Word) (hm : m = i.mnemonic)
    (hr : OpcodeRow.mk m 0x7F#32 p ∈ opcodeRows)
    (hp : p &&& 0x7F#32 = p) (ho : opcodeOf (encode i) = opcodeOf p) : Statement i :=
  ⟨_, hr, hm, ((opcode_mask _ p).mpr ho).trans hp⟩

/-- A row that fixes the major opcode and funct3. -/
theorem of_funct3 {i : Instr} (m : Mnemonic) (p : Word) (hm : m = i.mnemonic)
    (hr : OpcodeRow.mk m 0x707F#32 p ∈ opcodeRows)
    (hp : p &&& 0x707F#32 = p) (ho : opcodeOf (encode i) = opcodeOf p) (h3 : funct3Of (encode i) = funct3Of p) :
    Statement i :=
  ⟨_, hr, hm, ((opcode_funct3_mask _ p).mpr ⟨ho, h3⟩).trans hp⟩

/-- A row that fixes the major opcode, funct3 and inst[31:25]. -/
theorem of_funct7 {i : Instr} (m : Mnemonic) (p : Word) (hm : m = i.mnemonic)
    (hr : OpcodeRow.mk m 0xFE00707F#32 p ∈ opcodeRows)
    (hp : p &&& 0xFE00707F#32 = p) (ho : opcodeOf (encode i) = opcodeOf p) (h3 : funct3Of (encode i) = funct3Of p)
    (h7 : funct7Of (encode i) = funct7Of p) : Statement i :=
  ⟨_, hr, hm, ((opcode_funct3_funct7_mask _ p).mpr ⟨ho, h3, h7⟩).trans hp⟩

theorem lui (rd : Reg) (imm : BitVec 20) : Statement (Instr.lui rd imm) :=
  of_opcode .lui 0x00000037#32 rfl (by decide) (by decide) (opcode_encU ..)

theorem auipc (rd : Reg) (imm : BitVec 20) : Statement (Instr.auipc rd imm) :=
  of_opcode .auipc 0x00000017#32 rfl (by decide) (by decide) (opcode_encU ..)

theorem jal (rd : Reg) (off : BitVec 21) : Statement (Instr.jal rd off) :=
  of_opcode .jal 0x0000006F#32 rfl (by decide) (by decide) (opcode_encJ ..)

theorem jalr (rd rs1 : Reg) (imm : BitVec 12) : Statement (Instr.jalr rd rs1 imm) :=
  of_funct3 .jalr 0x00000067#32 rfl (by decide) (by decide) (opcode_encI ..) (funct3_encI ..)

theorem beq (rs1 rs2 : Reg) (off : BitVec 13) : Statement (Instr.beq rs1 rs2 off) :=
  of_funct3 .beq 0x00000063#32 rfl (by decide) (by decide) (opcode_encB ..) (funct3_encB ..)

theorem bne (rs1 rs2 : Reg) (off : BitVec 13) : Statement (Instr.bne rs1 rs2 off) :=
  of_funct3 .bne 0x00001063#32 rfl (by decide) (by decide) (opcode_encB ..) (funct3_encB ..)

theorem blt (rs1 rs2 : Reg) (off : BitVec 13) : Statement (Instr.blt rs1 rs2 off) :=
  of_funct3 .blt 0x00004063#32 rfl (by decide) (by decide) (opcode_encB ..) (funct3_encB ..)

theorem bge (rs1 rs2 : Reg) (off : BitVec 13) : Statement (Instr.bge rs1 rs2 off) :=
  of_funct3 .bge 0x00005063#32 rfl (by decide) (by decide) (opcode_encB ..) (funct3_encB ..)

theorem bltu (rs1 rs2 : Reg) (off : BitVec 13) : Statement (Instr.bltu rs1 rs2 off) :=
  of_funct3 .bltu 0x00006063#32 rfl (by decide) (by decide) (opcode_encB ..) (funct3_encB ..)

theorem bgeu (rs1 rs2 : Reg) (off : BitVec 13) : Statement (Instr.bgeu rs1 rs2 off) :=
  of_funct3 .bgeu 0x00007063#32 rfl (by decide) (by decide) (opcode_encB ..) (funct3_encB ..)

theorem lb (rd rs1 : Reg) (imm : BitVec 12) : Statement (Instr.lb rd rs1 imm) :=
  of_funct3 .lb 0x00000003#32 rfl (by decide) (by decide) (opcode_encI ..) (funct3_encI ..)

theorem lh (rd rs1 : Reg) (imm : BitVec 12) : Statement (Instr.lh rd rs1 imm) :=
  of_funct3 .lh 0x00001003#32 rfl (by decide) (by decide) (opcode_encI ..) (funct3_encI ..)

theorem lw (rd rs1 : Reg) (imm : BitVec 12) : Statement (Instr.lw rd rs1 imm) :=
  of_funct3 .lw 0x00002003#32 rfl (by decide) (by decide) (opcode_encI ..) (funct3_encI ..)

theorem lbu (rd rs1 : Reg) (imm : BitVec 12) : Statement (Instr.lbu rd rs1 imm) :=
  of_funct3 .lbu 0x00004003#32 rfl (by decide) (by decide) (opcode_encI ..) (funct3_encI ..)

theorem lhu (rd rs1 : Reg) (imm : BitVec 12) : Statement (Instr.lhu rd rs1 imm) :=
  of_funct3 .lhu 0x00005003#32 rfl (by decide) (by decide) (opcode_encI ..) (funct3_encI ..)

theorem sb (rs2 rs1 : Reg) (imm : BitVec 12) : Statement (Instr.sb rs2 rs1 imm) :=
  of_funct3 .sb 0x00000023#32 rfl (by decide) (by decide) (opcode_encS ..) (funct3_encS ..)

theorem sh (rs2 rs1 : Reg) (imm : BitVec 12) : Statement (Instr.sh rs2 rs1 imm) :=
  of_funct3 .sh 0x00001023#32 rfl (by decide) (by decide) (opcode_encS ..) (funct3_encS ..)

theorem sw (rs2 rs1 : Reg) (imm : BitVec 12) : Statement (Instr.sw rs2 rs1 imm) :=
  of_funct3 .sw 0x00002023#32 rfl (by decide) (by decide) (opcode_encS ..) (funct3_encS ..)

theorem addi (rd rs1 : Reg) (imm : BitVec 12) : Statement (Instr.addi rd rs1 imm) :=
  of_funct3 .addi 0x00000013#32 rfl (by decide) (by decide) (opcode_encI ..) (funct3_encI ..)

theorem slti (rd rs1 : Reg) (imm : BitVec 12) : Statement (Instr.slti rd rs1 imm) :=
  of_funct3 .slti 0x00002013#32 rfl (by decide) (by decide) (opcode_encI ..) (funct3_encI ..)

theorem sltiu (rd rs1 : Reg) (imm : BitVec 12) : Statement (Instr.sltiu rd rs1 imm) :=
  of_funct3 .sltiu 0x00003013#32 rfl (by decide) (by decide) (opcode_encI ..) (funct3_encI ..)

theorem xori (rd rs1 : Reg) (imm : BitVec 12) : Statement (Instr.xori rd rs1 imm) :=
  of_funct3 .xori 0x00004013#32 rfl (by decide) (by decide) (opcode_encI ..) (funct3_encI ..)

theorem ori (rd rs1 : Reg) (imm : BitVec 12) : Statement (Instr.ori rd rs1 imm) :=
  of_funct3 .ori 0x00006013#32 rfl (by decide) (by decide) (opcode_encI ..) (funct3_encI ..)

theorem andi (rd rs1 : Reg) (imm : BitVec 12) : Statement (Instr.andi rd rs1 imm) :=
  of_funct3 .andi 0x00007013#32 rfl (by decide) (by decide) (opcode_encI ..) (funct3_encI ..)

theorem slli (rd rs1 : Reg) (shamt : BitVec 5) : Statement (Instr.slli rd rs1 shamt) :=
  of_funct7 .slli 0x00001013#32 rfl (by decide) (by decide) (opcode_encI ..) (funct3_encI ..) (funct7_encI_shift ..)

theorem srli (rd rs1 : Reg) (shamt : BitVec 5) : Statement (Instr.srli rd rs1 shamt) :=
  of_funct7 .srli 0x00005013#32 rfl (by decide) (by decide) (opcode_encI ..) (funct3_encI ..) (funct7_encI_shift ..)

theorem srai (rd rs1 : Reg) (shamt : BitVec 5) : Statement (Instr.srai rd rs1 shamt) :=
  of_funct7 .srai 0x40005013#32 rfl (by decide) (by decide) (opcode_encI ..) (funct3_encI ..) (funct7_encI_shift ..)

theorem add (rd rs1 rs2 : Reg) : Statement (Instr.add rd rs1 rs2) :=
  of_funct7 .add 0x00000033#32 rfl (by decide) (by decide) (opcode_encR ..) (funct3_encR ..) (funct7_encR ..)

theorem sub (rd rs1 rs2 : Reg) : Statement (Instr.sub rd rs1 rs2) :=
  of_funct7 .sub 0x40000033#32 rfl (by decide) (by decide) (opcode_encR ..) (funct3_encR ..) (funct7_encR ..)

theorem sll (rd rs1 rs2 : Reg) : Statement (Instr.sll rd rs1 rs2) :=
  of_funct7 .sll 0x00001033#32 rfl (by decide) (by decide) (opcode_encR ..) (funct3_encR ..) (funct7_encR ..)

theorem slt (rd rs1 rs2 : Reg) : Statement (Instr.slt rd rs1 rs2) :=
  of_funct7 .slt 0x00002033#32 rfl (by decide) (by decide) (opcode_encR ..) (funct3_encR ..) (funct7_encR ..)

theorem sltu (rd rs1 rs2 : Reg) : Statement (Instr.sltu rd rs1 rs2) :=
  of_funct7 .sltu 0x00003033#32 rfl (by decide) (by decide) (opcode_encR ..) (funct3_encR ..) (funct7_encR ..)

theorem xor (rd rs1 rs2 : Reg) : Statement (Instr.xor rd rs1 rs2) :=
  of_funct7 .xor 0x00004033#32 rfl (by decide) (by decide) (opcode_encR ..) (funct3_encR ..) (funct7_encR ..)

theorem srl (rd rs1 rs2 : Reg) : Statement (Instr.srl rd rs1 rs2) :=
  of_funct7 .srl 0x00005033#32 rfl (by decide) (by decide) (opcode_encR ..) (funct3_encR ..) (funct7_encR ..)

theorem sra (rd rs1 rs2 : Reg) : Statement (Instr.sra rd rs1 rs2) :=
  of_funct7 .sra 0x40005033#32 rfl (by decide) (by decide) (opcode_encR ..) (funct3_encR ..) (funct7_encR ..)

theorem or (rd rs1 rs2 : Reg) : Statement (Instr.or rd rs1 rs2) :=
  of_funct7 .or 0x00006033#32 rfl (by decide) (by decide) (opcode_encR ..) (funct3_encR ..) (funct7_encR ..)

theorem and (rd rs1 rs2 : Reg) : Statement (Instr.and rd rs1 rs2) :=
  of_funct7 .and 0x00007033#32 rfl (by decide) (by decide) (opcode_encR ..) (funct3_encR ..) (funct7_encR ..)

theorem fence (fm pred succ : BitVec 4) (rs1 rd : Reg) : Statement (Instr.fence fm pred succ rs1 rd) :=
  of_funct3 .fence 0x0000000F#32 rfl (by decide) (by decide) (opcode_encI ..) (funct3_encI ..)

theorem ecall : Statement (Instr.ecall) :=
  ⟨⟨.ecall, 0xFFFFFFFF#32, 0x00000073#32⟩, by decide, rfl, by decide⟩

theorem ebreak : Statement (Instr.ebreak) :=
  ⟨⟨.ebreak, 0xFFFFFFFF#32, 0x00100073#32⟩, by decide, rfl, by decide⟩

end Sys2Proof.Laws.FixedBits
end

