-- ==== Sys2Proof/Laws/Values.lean ====
section
/-! SUPPORT. The operand values as numbers: immediates, addresses, targets and shifts (30_encoding.md R72 to R77,
41_integer_register_register.md R141). -/

namespace Sys2Proof.Machine

/-- A sign-extended immediate is the immediate's signed value (R72 to R76). -/
theorem sext_toInt {n : Nat} (v : BitVec n) (h : n ≤ 32) : (sext v).toInt = v.toInt :=
  BitVec.toInt_signExtend_of_le h

/-- The unsigned reading of a sign-extended immediate (R113). -/
theorem sext_toNat {n : Nat} (v : BitVec n) (h : n ≤ 32) : ((sext v).toNat : Int) = v.toInt % 2 ^ 32 := by
  rw [← sext_toInt v h, BitVec.toInt_eq_toNat_cond]
  have := (sext v).isLt
  split <;> omega

/-- Bit `k` of a sign-extended 12-bit immediate. -/
theorem sext_bit (v : BitVec 12) {k : Nat} (h : k < 32) : (sext v).getLsbD k = v.getLsbD (min k 11) := by
  rw [sext, BitVec.getLsbD_signExtend]
  by_cases hk : k < 12
  · have : min k 11 = k := by omega
    simp [hk, h, this]
  · have : min k 11 = 11 := by omega
    simp [hk, h, this, BitVec.msb_eq_getLsbD_last]

theorem zext_toNat {n : Nat} (v : BitVec n) (h : n ≤ 32) : (zext v).toNat = v.toNat := by
  rw [zext, BitVec.toNat_setWidth]
  exact Nat.mod_eq_of_lt (Nat.lt_of_lt_of_le v.isLt (Nat.pow_le_pow_right (by decide) h))

/-- A sum with a sign-extended immediate is taken modulo 2^32 (R111, R151, R153, R170). -/
theorem add_sext_toNat {n : Nat} (a : Word) (v : BitVec n) (h : n ≤ 32) :
    ((a + sext v).toNat : Int) = (a.toNat + v.toInt) % 2 ^ 32 := by
  have e := sext_toNat v h
  rw [BitVec.toNat_add]
  push_cast
  rw [e]
  omega

/-- Clearing bit 0 of a word halves and doubles it (R152). -/
theorem clear_bit_zero_toNat (a : Word) : (a &&& 0xFFFFFFFE#32).toNat = a.toNat / 2 * 2 := by
  have h : a &&& 0xFFFFFFFE#32 = a >>> 1 <<< 1 := by
    apply BitVec.eq_of_getLsbD_eq
    intro i hi
    simp only [BitVec.getLsbD_and, BitVec.getLsbD_shiftLeft, BitVec.getLsbD_ushiftRight]
    interval_cases i <;> simp
  rw [h]
  have := a.isLt
  simp only [BitVec.toNat_shiftLeft, BitVec.toNat_ushiftRight, Nat.shiftLeft_eq, Nat.shiftRight_eq_div_pow]
  omega

theorem upperImm_toNat (imm : BitVec 20) : (upperImm imm).toNat = imm.toNat * 2 ^ 12 := by
  have := imm.isLt
  simp only [upperImm, BitVec.toNat_append, BitVec.toNat_ofNat, Nat.shiftLeft_eq]
  simp

theorem shiftAmount_toNat (v : Word) : (shiftAmount v).toNat = v.toNat % 32 := by
  simp [shiftAmount, BitVec.extractLsb'_toNat]

theorem shiftLeft_toNat (v : Word) (k : BitVec 5) : (shiftLeft v k).toNat = v.toNat * 2 ^ k.toNat % 2 ^ 32 := by
  simp [shiftLeft, BitVec.toNat_shiftLeft, Nat.shiftLeft_eq]

theorem shiftRightLogical_toNat (v : Word) (k : BitVec 5) :
    (shiftRightLogical v k).toNat = v.toNat / 2 ^ k.toNat := by
  simp [shiftRightLogical, BitVec.toNat_ushiftRight, Nat.shiftRight_eq_div_pow]

/-- An arithmetic right shift is the floor of the signed quotient (R119). -/
theorem shiftRightArith_toInt (v : Word) (k : BitVec 5) :
    (shiftRightArith v k).toInt = v.toInt / 2 ^ k.toNat := by
  rw [shiftRightArith, BitVec.toInt_sshiftRight, Int.shiftRight_eq_div_pow]
  norm_cast

end Sys2Proof.Machine
end

