-- ==== Sys2Proof/Tests/Slice0.lean ====
section
/-! SUPPORT. The model's own tests. Expected results are those of spec/95_test_vectors.md (the id of each vector stands
in its test's comment; that file computed them from the rules, not from a run of the hardware), and, at the end, for
every obligation with hypotheses a concrete state that meets them. -/

namespace Sys2Proof.Tests

open Sys2Proof.Machine

/-! ## Helpers -/

/-- A running state: `w` in memory at `addr`, the pc there, the image just long enough to fetch it, registers set. -/
def before (addr w : Word) (regs : List (Reg × Word)) : State :=
  regs.foldl (fun s p => s.setX p.1 p.2)
    { State.reset with
      status := .running
      pc := addr
      image := List.replicate (addr.toNat / 4 + 1) 0#32
      mem := Memory.writeLE [] addr.toNat 4 w }

/-- The same with four bytes stored at another address. -/
def beforeMem (a : Nat) (v : Word) (w : Word) (regs : List (Reg × Word)) : State :=
  let s := before 0#32 w regs
  s.setMem (Memory.writeLE s.mem a 4 v)

/-- An idle state with one host call to make. -/
def hostState (st : Status) (c : HostCall) : State :=
  { State.reset with status := st, calls := [c] }

/-- The outcome is a next state with the property. -/
def leads (r : Result) (p : State → Bool) : Bool :=
  match r with
  | .next t => p t
  | .fault _ => false
  | .refused _ => false

/-- The outcome is a next state that retired to `pc` with register `r` holding `v`. -/
def wrote (s : State) (r : Reg) (v pc : Word) : Bool :=
  leads (step s) fun t => decide (t.x r = v) && decide (t.pc = pc) && decide (t.steps = s.steps + 1) &&
    decide (t.status = .running)

/-- The outcome is the trap `c`: registers, memory, pc and steps as before, one log entry. -/
def trapped (s : State) (c : TrapCause) : Bool :=
  leads (step s) fun t => decide (t = { s with status := .trapped c, log := s.log ++ [.trap c s.pc] })

/-! ## WellFormed: each check refuses an ill-formed term -/

theorem test_wf_even_branch : (Instr.beq 1#5 2#5 8#13).wellFormed = true := by decide
theorem test_wf_odd_beq : (Instr.beq 1#5 2#5 7#13).wellFormed = false := by decide
theorem test_wf_odd_bne : (Instr.bne 1#5 2#5 1#13).wellFormed = false := by decide
theorem test_wf_odd_blt : (Instr.blt 1#5 2#5 3#13).wellFormed = false := by decide
theorem test_wf_odd_bge : (Instr.bge 1#5 2#5 5#13).wellFormed = false := by decide
theorem test_wf_odd_bltu : (Instr.bltu 1#5 2#5 9#13).wellFormed = false := by decide
theorem test_wf_odd_bgeu : (Instr.bgeu 1#5 2#5 (-1#13)).wellFormed = false := by decide
theorem test_wf_odd_jal : (Instr.jal 1#5 2047#21).wellFormed = false := by decide

/-! ## Decoding: every constructor, its word written out field by field (R71 to R79, R82) -/

/-- VI31: 0x123452B7. -/
theorem test_decode_lui :
    decode (0b00010010001101000101#20 ++ 0b00101#5 ++ 0b0110111#7) = .ok (.lui 5#5 0x12345#20) := by decide

/-- VI35: 0xFFFFF297. -/
theorem test_decode_auipc :
    decode (0b11111111111111111111#20 ++ 0b00101#5 ++ 0b0010111#7) = .ok (.auipc 5#5 0xFFFFF#20) := by decide

/-- VC6: 0xFF9FF0EF. -/
theorem test_decode_jal :
    decode (0b1#1 ++ 0b1111111100#10 ++ 0b1#1 ++ 0b11111111#8 ++ 0b00001#5 ++ 0b1101111#7) = .ok (.jal 1#5 (-8#21)) := by decide

/-- VC8: 0x004280E7. -/
theorem test_decode_jalr :
    decode (0b000000000100#12 ++ 0b00101#5 ++ 0b000#3 ++ 0b00001#5 ++ 0b1100111#7) = .ok (.jalr 1#5 5#5 4#12) := by decide

/-- VC25: 0x7E000FE3. -/
theorem test_decode_beq :
    decode (0b0#1 ++ 0b111111#6 ++ 0b00000#5 ++ 0b00000#5 ++ 0b000#3 ++ 0b1111#4 ++ 0b1#1 ++ 0b1100011#7) = .ok (.beq 0#5 0#5 4094#13) := by decide

/-- VC27: 0xFE731CE3. -/
theorem test_decode_bne :
    decode (0b1#1 ++ 0b111111#6 ++ 0b00111#5 ++ 0b00110#5 ++ 0b001#3 ++ 0b1100#4 ++ 0b1#1 ++ 0b1100011#7) = .ok (.bne 6#5 7#5 (-8#13)) := by decide

/-- VC18: 0x00734463. -/
theorem test_decode_blt :
    decode (0b0#1 ++ 0b000000#6 ++ 0b00111#5 ++ 0b00110#5 ++ 0b100#3 ++ 0b0100#4 ++ 0b0#1 ++ 0b1100011#7) = .ok (.blt 6#5 7#5 8#13) := by decide

/-- VC19: 0x00735463. -/
theorem test_decode_bge :
    decode (0b0#1 ++ 0b000000#6 ++ 0b00111#5 ++ 0b00110#5 ++ 0b101#3 ++ 0b0100#4 ++ 0b0#1 ++ 0b1100011#7) = .ok (.bge 6#5 7#5 8#13) := by decide

/-- VC20: 0x00736463. -/
theorem test_decode_bltu :
    decode (0b0#1 ++ 0b000000#6 ++ 0b00111#5 ++ 0b00110#5 ++ 0b110#3 ++ 0b0100#4 ++ 0b0#1 ++ 0b1100011#7) = .ok (.bltu 6#5 7#5 8#13) := by decide

/-- VC21: 0x00737463. -/
theorem test_decode_bgeu :
    decode (0b0#1 ++ 0b000000#6 ++ 0b00111#5 ++ 0b00110#5 ++ 0b111#3 ++ 0b0100#4 ++ 0b0#1 ++ 0b1100011#7) = .ok (.bgeu 6#5 7#5 8#13) := by decide

/-- VM2: 0x00730283. -/
theorem test_decode_lb :
    decode (0b000000000111#12 ++ 0b00110#5 ++ 0b000#3 ++ 0b00101#5 ++ 0b0000011#7) = .ok (.lb 5#5 6#5 7#12) := by decide

/-- VM9: 0x00531283. -/
theorem test_decode_lh :
    decode (0b000000000101#12 ++ 0b00110#5 ++ 0b001#3 ++ 0b00101#5 ++ 0b0000011#7) = .ok (.lh 5#5 6#5 5#12) := by decide

/-- VM8: 0xFFC32283. -/
theorem test_decode_lw :
    decode (0b111111111100#12 ++ 0b00110#5 ++ 0b010#3 ++ 0b00101#5 ++ 0b0000011#7) = .ok (.lw 5#5 6#5 (-4#12)) := by decide

/-- VM3: 0x00734283. -/
theorem test_decode_lbu :
    decode (0b000000000111#12 ++ 0b00110#5 ++ 0b100#3 ++ 0b00101#5 ++ 0b0000011#7) = .ok (.lbu 5#5 6#5 7#12) := by decide

/-- VM6: 0x00635283. -/
theorem test_decode_lhu :
    decode (0b000000000110#12 ++ 0b00110#5 ++ 0b101#3 ++ 0b00101#5 ++ 0b0000011#7) = .ok (.lhu 5#5 6#5 6#12) := by decide

/-- VM30: 0x00730223. -/
theorem test_decode_sb :
    decode (0b0000000#7 ++ 0b00111#5 ++ 0b00110#5 ++ 0b000#3 ++ 0b00100#5 ++ 0b0100011#7) = .ok (.sb 7#5 6#5 4#12) := by decide

/-- VM34: 0x007311A3. -/
theorem test_decode_sh :
    decode (0b0000000#7 ++ 0b00111#5 ++ 0b00110#5 ++ 0b001#3 ++ 0b00011#5 ++ 0b0100011#7) = .ok (.sh 7#5 6#5 3#12) := by decide

/-- VM33: 0xFE732E23. -/
theorem test_decode_sw :
    decode (0b1111111#7 ++ 0b00111#5 ++ 0b00110#5 ++ 0b010#3 ++ 0b11100#5 ++ 0b0100011#7) = .ok (.sw 7#5 6#5 (-4#12)) := by decide

/-- VI3: 0x80030293. -/
theorem test_decode_addi :
    decode (0b100000000000#12 ++ 0b00110#5 ++ 0b000#3 ++ 0b00101#5 ++ 0b0010011#7) = .ok (.addi 5#5 6#5 (-2048#12)) := by decide

/-- VI7: 0xFFF32293. -/
theorem test_decode_slti :
    decode (0b111111111111#12 ++ 0b00110#5 ++ 0b010#3 ++ 0b00101#5 ++ 0b0010011#7) = .ok (.slti 5#5 6#5 (-1#12)) := by decide

/-- VI14: 0x80033293. -/
theorem test_decode_sltiu :
    decode (0b100000000000#12 ++ 0b00110#5 ++ 0b011#3 ++ 0b00101#5 ++ 0b0010011#7) = .ok (.sltiu 5#5 6#5 (-2048#12)) := by decide

/-- VI15: 0xFFF34293. -/
theorem test_decode_xori :
    decode (0b111111111111#12 ++ 0b00110#5 ++ 0b100#3 ++ 0b00101#5 ++ 0b0010011#7) = .ok (.xori 5#5 6#5 (-1#12)) := by decide

/-- VI17: 0xF0036293. -/
theorem test_decode_ori :
    decode (0b111100000000#12 ++ 0b00110#5 ++ 0b110#3 ++ 0b00101#5 ++ 0b0010011#7) = .ok (.ori 5#5 6#5 (-256#12)) := by decide

/-- VI18: 0x0FF37293. -/
theorem test_decode_andi :
    decode (0b000011111111#12 ++ 0b00110#5 ++ 0b111#3 ++ 0b00101#5 ++ 0b0010011#7) = .ok (.andi 5#5 6#5 0xFF#12) := by decide

/-- VI21: 0x01F31293. -/
theorem test_decode_slli :
    decode (0b0000000#7 ++ 0b11111#5 ++ 0b00110#5 ++ 0b001#3 ++ 0b00101#5 ++ 0b0010011#7) = .ok (.slli 5#5 6#5 31#5) := by decide

/-- VI23: 0x00435293. -/
theorem test_decode_srli :
    decode (0b0000000#7 ++ 0b00100#5 ++ 0b00110#5 ++ 0b101#3 ++ 0b00101#5 ++ 0b0010011#7) = .ok (.srli 5#5 6#5 4#5) := by decide

/-- VI25: 0x40435293. -/
theorem test_decode_srai :
    decode (0b0100000#7 ++ 0b00100#5 ++ 0b00110#5 ++ 0b101#3 ++ 0b00101#5 ++ 0b0010011#7) = .ok (.srai 5#5 6#5 4#5) := by decide

/-- VR1: 0x007302B3. -/
theorem test_decode_add :
    decode (0b0000000#7 ++ 0b00111#5 ++ 0b00110#5 ++ 0b000#3 ++ 0b00101#5 ++ 0b0110011#7) = .ok (.add 5#5 6#5 7#5) := by decide

/-- VR5: 0x407302B3. -/
theorem test_decode_sub :
    decode (0b0100000#7 ++ 0b00111#5 ++ 0b00110#5 ++ 0b000#3 ++ 0b00101#5 ++ 0b0110011#7) = .ok (.sub 5#5 6#5 7#5) := by decide

/-- VR8: 0x007312B3. -/
theorem test_decode_sll :
    decode (0b0000000#7 ++ 0b00111#5 ++ 0b00110#5 ++ 0b001#3 ++ 0b00101#5 ++ 0b0110011#7) = .ok (.sll 5#5 6#5 7#5) := by decide

/-- VR11: 0x007322B3. -/
theorem test_decode_slt :
    decode (0b0000000#7 ++ 0b00111#5 ++ 0b00110#5 ++ 0b010#3 ++ 0b00101#5 ++ 0b0110011#7) = .ok (.slt 5#5 6#5 7#5) := by decide

/-- VR14: 0x007332B3. -/
theorem test_decode_sltu :
    decode (0b0000000#7 ++ 0b00111#5 ++ 0b00110#5 ++ 0b011#3 ++ 0b00101#5 ++ 0b0110011#7) = .ok (.sltu 5#5 6#5 7#5) := by decide

/-- VR17: 0x007342B3. -/
theorem test_decode_xor :
    decode (0b0000000#7 ++ 0b00111#5 ++ 0b00110#5 ++ 0b100#3 ++ 0b00101#5 ++ 0b0110011#7) = .ok (.xor 5#5 6#5 7#5) := by decide

/-- VR18: 0x007352B3. -/
theorem test_decode_srl :
    decode (0b0000000#7 ++ 0b00111#5 ++ 0b00110#5 ++ 0b101#3 ++ 0b00101#5 ++ 0b0110011#7) = .ok (.srl 5#5 6#5 7#5) := by decide

/-- VR20: 0x407352B3. -/
theorem test_decode_sra :
    decode (0b0100000#7 ++ 0b00111#5 ++ 0b00110#5 ++ 0b101#3 ++ 0b00101#5 ++ 0b0110011#7) = .ok (.sra 5#5 6#5 7#5) := by decide

/-- VR23: 0x007362B3. -/
theorem test_decode_or :
    decode (0b0000000#7 ++ 0b00111#5 ++ 0b00110#5 ++ 0b110#3 ++ 0b00101#5 ++ 0b0110011#7) = .ok (.or 5#5 6#5 7#5) := by decide

/-- VR24: 0x007372B3. -/
theorem test_decode_and :
    decode (0b0000000#7 ++ 0b00111#5 ++ 0b00110#5 ++ 0b111#3 ++ 0b00101#5 ++ 0b0110011#7) = .ok (.and 5#5 6#5 7#5) := by decide

/-- VF4: 0x8333028F. -/
theorem test_decode_fence :
    decode (0b1000#4 ++ 0b0011#4 ++ 0b0011#4 ++ 0b00110#5 ++ 0b000#3 ++ 0b00101#5 ++ 0b0001111#7) = .ok (.fence 8#4 3#4 3#4 6#5 5#5) := by decide

/-- VS1: 0x00000073. -/
theorem test_decode_ecall :
    decode (0b000000000000#12 ++ 0b00000#5 ++ 0b000#3 ++ 0b00000#5 ++ 0b1110011#7) = .ok (.ecall) := by decide

/-- VS3: 0x00100073. -/
theorem test_decode_ebreak :
    decode (0b000000000001#12 ++ 0b00000#5 ++ 0b000#3 ++ 0b00000#5 ++ 0b1110011#7) = .ok (.ebreak) := by decide

/-- The classes of R83 that the vectors name: VI28 to VI30, VR25 to VR27, VC14, VC28, VC29. -/
theorem test_illegal_words_integer :
    [0x40431293#32, 0x02031293#32, 0x02435293#32, 0x027302B3#32, 0x407312B3#32, 0x407372B3#32, 0x000290E7#32,
      0x00732463#32, 0x00733463#32].all (fun w => decide (decode w = .error .shiftFunct7) ||
        decide (decode w = .error .opFunct) || decide (decode w = .error .jalrFunct3) ||
        decide (decode w = .error .branchFunct3)) = true := by decide

/-- VM23 to VM25, VM43, VM44, VF5. -/
theorem test_illegal_words_memory :
    [0x00433283#32, 0x00436283#32, 0x00437283#32, 0x00733223#32, 0x00737223#32, 0x0000100F#32].all
      (fun w => decide (decode w = .error .loadFunct3) || decide (decode w = .error .storeFunct3) ||
        decide (decode w = .error .miscMemFunct3)) = true := by decide

/-- VS4 to VS9: SYSTEM words that are neither ECALL nor EBREAK. -/
theorem test_illegal_words_system :
    [0x000000F3#32, 0x30001073#32, 0xC00022F3#32, 0x30200073#32, 0x10200073#32, 0x10500073#32].all
      (fun w => decide (decode w = .error .systemWord)) = true := by decide

/-- VX1 to VX9. -/
theorem test_illegal_words_other :
    [0x00000000#32, 0x00000001#32, 0x00000012#32].all (fun w => decide (decode w = .error .notThirtyTwoBit)) = true ∧
      [0xFFFFFFFF#32, 0x00002007#32, 0x0073202F#32, 0x0013009B#32, 0x0000000B#32, 0x00000053#32].all
        (fun w => decide (decode w = .error .unusedMajorOpcode)) = true := by decide

/-- A byte list is read little-endian and the rest is handed back; a short one is rejected (R42, R70). -/
theorem test_decode_bytes :
    decodeBytes [0x93#8, 0x02#8, 0xF3#8, 0xFF#8, 0xAA#8] = .ok (.addi 5#5 6#5 (-1#12), [0xAA#8]) ∧
      decodeBytes [0x93#8, 0x02#8, 0xF3#8] = .error .truncated := by decide

/-- The plain `fence` of R99, and the table's FENCE row with the bits above it 0. -/
theorem test_decode_table_word :
    decodeTableWord 32 0x0FF0000F = some (.fence 0#4 15#4 15#4 0#5 0#5) ∧
      decodeTableWord 32 0x40005013 = some (.srai 0#5 0#5 0#5) ∧ decodeTableWord 32 0 = none := by decide

/-! ## One step of each instruction -/

/-- VI31. -/
theorem test_lui_low_bits_zero : wrote (before 0x0#32 0x123452B7#32 [(5#5, 0xFFFFFFFF#32)]) 5#5 0x12345000#32 0x4#32 = true := by decide

/-- VI35. -/
theorem test_auipc_wraps : wrote (before 0x10#32 0xFFFFF297#32 []) 5#5 0xFFFFF010#32 0x14#32 = true := by decide

/-- VC6. -/
theorem test_jal_backward : wrote (before 0x0#32 0xFF9FF0EF#32 []) 1#5 0x4#32 0xFFFFFFF8#32 = true := by decide

/-- VC9. -/
theorem test_jalr_source_is_destination : wrote (before 0x8#32 0x000080E7#32 [(1#5, 0x20#32)]) 1#5 0xC#32 0x20#32 = true := by decide

/-- VC12: bit 0 is cleared, bit 1 is not, so the target is misaligned; nothing is linked. -/
theorem test_jalr_misaligned : trapped (before 0#32 0x003280E7#32 [(5#5, 8#32)]) (.misaligned .jump 0xA#32) = true := by
  decide

/-- Where a branch `op x6, x7, +8` at 0x10 goes for the four pairs of values of VC16 to VC21. -/
def branchRow (w : Word) : List Bool :=
  [(3#32, 3#32), (3#32, 4#32), (0xFFFFFFFF#32, 0#32), (0#32, 0xFFFFFFFF#32)].map fun p =>
    leads (step (before 0x10#32 w [(6#5, p.1), (7#5, p.2)])) fun t => decide (t.pc = 0x18#32)

/-- VC16. -/
theorem test_beq_row : branchRow 0x00730463#32 = [true, false, false, false] := by decide

/-- VC17. -/
theorem test_bne_row : branchRow 0x00731463#32 = [false, true, true, true] := by decide

/-- VC18. -/
theorem test_blt_row : branchRow 0x00734463#32 = [false, true, true, false] := by decide

/-- VC19. -/
theorem test_bge_row : branchRow 0x00735463#32 = [true, false, false, true] := by decide

/-- VC20. -/
theorem test_bltu_row : branchRow 0x00736463#32 = [false, true, false, true] := by decide

/-- VC21. -/
theorem test_bgeu_row : branchRow 0x00737463#32 = [true, false, true, false] := by decide

/-- VC23: taken, target no multiple of 4. -/
theorem test_beq_misaligned : trapped (before 0#32 0x00000363#32 []) (.misaligned .jump 6#32) = true := by decide

/-- VC24: not taken, so no check. -/
theorem test_bne_not_taken_unchecked : wrote (before 0#32 0x00001363#32 []) 0#5 0#32 4#32 = true := by decide

/-- VM2. -/
theorem test_lb_sign :
    wrote (beforeMem 0x104 0x92345678#32 0x00730283#32 [(6#5, 0x100#32)]) 5#5 0xFFFFFF92#32 4#32 = true := by decide

/-- VM5. -/
theorem test_lh_sign :
    wrote (beforeMem 0x104 0x92345678#32 0x00631283#32 [(6#5, 0x100#32)]) 5#5 0xFFFF9234#32 4#32 = true := by decide

/-- VM7. -/
theorem test_lw_little_endian :
    wrote (beforeMem 0x104 0x92345678#32 0x00432283#32 [(6#5, 0x100#32)]) 5#5 0x92345678#32 4#32 = true := by decide

/-- VM3. -/
theorem test_lbu_zero :
    wrote (beforeMem 0x104 0x92345678#32 0x00734283#32 [(6#5, 0x100#32)]) 5#5 0x92#32 4#32 = true := by decide

/-- VM6. -/
theorem test_lhu_zero :
    wrote (beforeMem 0x104 0x92345678#32 0x00635283#32 [(6#5, 0x100#32)]) 5#5 0x9234#32 4#32 = true := by decide

/-- VM13: misaligned and across the end of memory: alignment first. -/
theorem test_lw_alignment_first :
    trapped (before 0#32 0x00032283#32 [(6#5, 0xFFFE#32)]) (.misaligned .load 0xFFFE#32) = true := by decide

/-- VM16. -/
theorem test_lb_out_of_bounds :
    trapped (before 0#32 0x00030283#32 [(6#5, 0x10000#32)]) (.outOfBounds .load 0x10000#32) = true := by decide

/-- VM40: both faults apply. -/
theorem test_sh_alignment_first :
    trapped (before 0#32 0x00731023#32 [(6#5, 0xFFFF#32)]) (.misaligned .store 0xFFFF#32) = true := by decide

/-- The bytes at 0x102 .. 0x109 after one step with x6 = 0x100 and x7 = 0x1234ABCD over memory 0x92345678 at 0x104. -/
def storedBytes (w : Word) : List Byte :=
  match step (beforeMem 0x104 0x92345678#32 w [(6#5, 0x100#32), (7#5, 0x1234ABCD#32)]) with
  | .next t => (List.range 8).map fun i => Memory.byte t.mem (0x102 + i)
  | .fault _ => []
  | .refused _ => []

/-- R176: SB writes one byte at 0x104 and no other. -/
theorem test_sb_bytes :
    storedBytes 0x00730223#32 = [0#8, 0#8, 0xCD#8, 0x56#8, 0x34#8, 0x92#8, 0#8, 0#8] := by decide

/-- R177: SH writes two bytes, the low one first. -/
theorem test_sh_bytes :
    storedBytes 0x00731223#32 = [0#8, 0#8, 0xCD#8, 0xAB#8, 0x34#8, 0x92#8, 0#8, 0#8] := by decide

/-- R178: SW writes four bytes, the low one first. -/
theorem test_sw_bytes :
    storedBytes 0x00732223#32 = [0#8, 0#8, 0xCD#8, 0xAB#8, 0x34#8, 0x12#8, 0#8, 0#8] := by decide

/-- VM37. -/
theorem test_sw_out_of_bounds :
    trapped (before 0#32 0x00732023#32 [(6#5, 0x10000#32), (7#5, 1#32)]) (.outOfBounds .store 0x10000#32) = true := by
  decide

/-- VI2. -/
theorem test_addi_wraps : wrote (before 0x0#32 0x7FF30293#32 [(6#5, 0x7FFFFFFF#32)]) 5#5 0x800007FE#32 0x4#32 = true := by decide

/-- VI9. -/
theorem test_slti_signed : wrote (before 0x0#32 0x00032293#32 [(6#5, 0xFFFFFFFF#32)]) 5#5 0x1#32 0x4#32 = true := by decide

/-- VI14. -/
theorem test_sltiu_immediate_extended : wrote (before 0x0#32 0x80033293#32 [(6#5, 0x7FF#32)]) 5#5 0x1#32 0x4#32 = true := by decide

/-- VI15. -/
theorem test_xori_not : wrote (before 0x0#32 0xFFF34293#32 [(6#5, 0x12345678#32)]) 5#5 0xEDCBA987#32 0x4#32 = true := by decide

/-- VI17. -/
theorem test_ori_extended : wrote (before 0x0#32 0xF0036293#32 [(6#5, 0x12#32)]) 5#5 0xFFFFFF12#32 0x4#32 = true := by decide

/-- VI19. -/
theorem test_andi_extended : wrote (before 0x0#32 0xFF037293#32 [(6#5, 0x12345678#32)]) 5#5 0x12345670#32 0x4#32 = true := by decide

/-- VI20. -/
theorem test_slli_drops_high : wrote (before 0x0#32 0x00431293#32 [(6#5, 0xF0000001#32)]) 5#5 0x10#32 0x4#32 = true := by decide

/-- VI23. -/
theorem test_srli_zero_fill : wrote (before 0x0#32 0x00435293#32 [(6#5, 0x80000010#32)]) 5#5 0x8000001#32 0x4#32 = true := by decide

/-- VI25. -/
theorem test_srai_sign_fill : wrote (before 0x0#32 0x40435293#32 [(6#5, 0x80000010#32)]) 5#5 0xF8000001#32 0x4#32 = true := by decide

/-- VR2. -/
theorem test_add_wraps : wrote (before 0x0#32 0x007302B3#32 [(6#5, 0xFFFFFFFF#32), (7#5, 0x1#32), (5#5, 0x9#32)]) 5#5 0x0#32 0x4#32 = true := by decide

/-- VR5. -/
theorem test_sub_order : wrote (before 0x0#32 0x407302B3#32 [(6#5, 0x0#32), (7#5, 0x1#32)]) 5#5 0xFFFFFFFF#32 0x4#32 = true := by decide

/-- VR8. -/
theorem test_sll_amount_mod_32 : wrote (before 0x0#32 0x007312B3#32 [(6#5, 0x1#32), (7#5, 0x24#32)]) 5#5 0x10#32 0x4#32 = true := by decide

/-- VR12. -/
theorem test_slt_signed : wrote (before 0x0#32 0x007322B3#32 [(6#5, 0x80000000#32), (7#5, 0x7FFFFFFF#32)]) 5#5 0x1#32 0x4#32 = true := by decide

/-- VR14. -/
theorem test_sltu_unsigned : wrote (before 0x0#32 0x007332B3#32 [(6#5, 0xFFFFFFFF#32), (7#5, 0x0#32), (5#5, 0x9#32)]) 5#5 0x0#32 0x4#32 = true := by decide

/-- VR17. -/
theorem test_xor : wrote (before 0x0#32 0x007342B3#32 [(6#5, 0xFF00FF00#32), (7#5, 0xFF00FF0#32)]) 5#5 0xF0F0F0F0#32 0x4#32 = true := by decide

/-- VR19. -/
theorem test_srl_amount_mod_32 : wrote (before 0x0#32 0x007352B3#32 [(6#5, 0x80000010#32), (7#5, 0x24#32)]) 5#5 0x8000001#32 0x4#32 = true := by decide

/-- VR22. -/
theorem test_sra_amount_31 : wrote (before 0x0#32 0x407352B3#32 [(6#5, 0x80000000#32), (7#5, 0xFFFFFFFF#32)]) 5#5 0xFFFFFFFF#32 0x4#32 = true := by decide

/-- VR23. -/
theorem test_or : wrote (before 0x0#32 0x007362B3#32 [(6#5, 0xFF00FF00#32), (7#5, 0xFF00FF0#32)]) 5#5 0xFFF0FFF0#32 0x4#32 = true := by decide

/-- VR24. -/
theorem test_and : wrote (before 0x0#32 0x007372B3#32 [(6#5, 0xFF00FF00#32), (7#5, 0xFF00FF0#32)]) 5#5 0xF000F00#32 0x4#32 = true := by decide

/-- VF4: rd = 5 is not written. -/
theorem test_fence_writes_nothing : wrote (before 0x0#32 0x8333028F#32 [(6#5, 0x1#32)]) 5#5 0x0#32 0x4#32 = true := by decide

/-- VI4: a write to x0 is discarded. -/
theorem test_addi_x0 : wrote (before 0#32 0x00530013#32 [(6#5, 1#32)]) 0#5 0#32 4#32 = true := by decide

/-- VS1: only status changes. -/
theorem test_ecall :
    leads (step (before 0#32 0x00000073#32 [(10#5, 5#32), (17#5, 93#32)])) (fun t =>
      decide (t = { before 0#32 0x00000073#32 [(10#5, 5#32), (17#5, 93#32)] with status := .halted .exit })) = true := by
  decide

/-- VS3. -/
theorem test_ebreak :
    leads (step (before 0#32 0x00100073#32 [])) (fun t =>
      decide (t = { before 0#32 0x00100073#32 [] with status := .halted .breakpoint })) = true := by decide

/-- VX1. -/
theorem test_illegal_traps : trapped (before 0#32 0#32 []) (.illegalInstruction 0#32) = true := by decide

/-- VL1. -/
theorem test_fetch_past_image :
    trapped { before 0#32 0#32 [] with pc := 8#32 } (.outOfBounds .fetch 8#32) = true := by decide

/-- VL6: MAX_STEPS = 0 halts before anything is fetched. -/
theorem test_step_limit_zero :
    leads (step { before 0#32 0x00000073#32 [] with config := ⟨65536, 0⟩ }) (fun t =>
      decide (t.status = .halted .stepLimitExceeded) && decide (t.pc = 0#32) && decide (t.steps = 0) &&
        decide (t.log = [.stepLimit 0#32])) = true := by decide

/-- P4 in one step: a store into the text region is what the next fetch reads. -/
theorem test_store_into_text :
    leads (step (before 0#32 0x00502023#32 [(5#5, 0x00700513#32)])) (fun t =>
      decide (fetch t 0#32 = .ok 0x00700513#32) && decide (t.image = [0#32])) = true := by decide

/-- The launch of a word from reset runs it (log 20). -/
theorem test_withFetchWord_from_reset :
    leads (step (State.reset.withFetchWord 32 0x00500093)) (fun t => decide (t.x 1#5 = 5#32) && decide (t.pc = 4#32)) =
      true := by decide

/-! ## The assembler -/

/-- V1: the document's two-line program, in its escaped form. -/
theorem test_assemble_two_addi :
    assembleText "addi x1, x0, 5\\naddi x2, x1, 10\\n".toList = .ok [0x00500093#32, 0x00A08113#32] := by decide

/-- P1: labels, a comment, ABI names, upper case, a backward branch. -/
theorem test_assemble_loop :
    assembleText "  ADDI t0, x0, 10 # counter\\nLoop: add X6, x6, x5\\naddi x5, x5, -1\\nbne x5, zero, Loop\\necall".toList =
      .ok [0x00A00293#32, 0x00530333#32, 0xFFF28293#32, 0xFE029CE3#32, 0x00000073#32] := by decide

/-- P2 and P3: loads, stores, JALR, a forward JAL, LUI with a hexadecimal operand. -/
theorem test_assemble_forms :
    assembleText "jal x1, f\\nf: lui x5, 0x12345\\nsw x5, 16(x0)\\nlh x9, 2(x6)\\njalr x0, 0(x1)\\nslli x5, x6, 31".toList =
      .ok [0x004000EF#32, 0x123452B7#32, 0x00502823#32, 0x00231483#32, 0x00008067#32, 0x01F31293#32] := by decide

/-- V6, V7 and R93: the five failures of one line, an undefined and a doubly defined label. -/
theorem test_assemble_errors :
    assembleText "addi x1, x0, 2048".toList = .error (.failed (.immediateRange 1)) ∧
      assembleText "addi x32, x0, 1".toList = .error (.failed (.invalidRegister 1)) ∧
      assembleText "mul x1, x2, x3".toList = .error (.failed (.unknownMnemonic 1)) ∧
      assembleText "slli x1, x1, 32".toList = .error (.failed (.immediateRange 1)) ∧
      assembleText "beq x0, x0, nowhere\\necall".toList = .error (.failed (.undefinedSymbol 1)) ∧
      assembleText "a: ecall\\na: ecall".toList = .error (.failed (.duplicateLabel 2)) ∧
      assembleText "beq x0, x0, 3".toList = .error (.failed (.offsetRange 1)) ∧
      assembleText "add x1, x2".toList = .error (.failed (.syntaxError 1 1 .malformedOperandList)) := by decide

/-- R91, R99: missing, surplus and wrong operands are found when the line is parsed, before any label or register is. -/
theorem test_assemble_malformed :
    assembleText "beq x1, x2".toList = .error (.failed (.syntaxError 1 1 .malformedOperandList)) ∧
      assembleText "jal x1".toList = .error (.failed (.syntaxError 1 1 .malformedOperandList)) ∧
      assembleText "jal x1, nowhere\\necall x1".toList = .error (.failed (.syntaxError 2 1 .malformedOperandList)) ∧
      assembleText "addi x32, x0, x1".toList = .error (.failed (.syntaxError 1 1 .malformedOperandList)) := by decide

/-- R91: the first unknown token of a line is the one named. -/
theorem test_assemble_leftmost_token :
    assembleText "1a 2b ?".toList = .error (.failed (.syntaxError 1 1 .unknownToken)) ∧
      assembleText "addi x1, x0, .5".toList = .error (.failed (.syntaxError 1 14 .unknownToken)) := by decide

/-- R101, U7: a directive has no meaning, alone on its line or after a label. -/
theorem test_assemble_directive :
    assembleText "ecall\\n.word 5".toList = .error (.directive 2) ∧
      assembleText "a: .word 5".toList = .error (.directive 1) := by decide

/-- R102, R99: a word listed as mnemonic and operands. -/
theorem test_listing_line :
    listingLine 8 0xFE731CE3#32 = ⟨8, 0xFE731CE3#32, some (.bne 6#5 7#5 (-8#13)), "bne x6, x7, -8".toList⟩ := by decide

/-! ## The host's calls -/

/-- VL10, V8: a failed assemble changes the log and the replies only. -/
theorem test_failed_assemble :
    leads (step (hostState (.trapped (.outOfBounds .fetch 8#32)) (.assemble "addi x1, x0, 5000".toList))) (fun t =>
      decide (t.status = .trapped (.outOfBounds .fetch 8#32)) && decide (t.log = [.assembly (.immediateRange 1)]) &&
        decide (t.replies = [.assemblyFailed (.immediateRange 1)])) = true := by decide

/-- VL8: run() on a fresh State. -/
theorem test_run_uninitialized :
    leads (step (hostState .uninitialized .run)) (fun t =>
      decide (t = { State.reset with replies := [.invalidState] })) = true := by decide

/-- VL7: get_state() on a fresh State. -/
theorem test_get_state_fresh :
    leads (step (hostState .uninitialized .getState)) (fun t =>
      decide (t.replies = [.dump .uninitialized 0#32 (List.replicate 32 0#32)])) = true := by decide

/-! ## Witnesses: for every obligation with hypotheses, inputs that meet them, each clause at a boundary -/

theorem witness_DecodeEncodeRoundTrip : (Instr.jal 31#5 (-1048576#21)).wellFormed = true := by decide

theorem witness_EncodeDecodeRoundTrip : decode 0x80000063#32 = .ok (.beq 0#5 0#5 (-4096#13)) := by decide

theorem witness_DecodeAgreesWithOpcodeTable :
    (⟨.srai, 0xFE00707F#32, 0x40005013#32⟩ : OpcodeRow) ∈ opcodeRows ∧
      (⟨.srai, 0xFE00707F#32, 0x40005013#32⟩ : OpcodeRow).Matches 0x41F35293#32 := by decide

/-- Both sides of the equivalence occur. -/
theorem witness_IllegalIsTheComplement :
    (∀ row ∈ opcodeRows, ¬row.Matches 0x40431293#32) ∧ decode 0x40431293#32 = .error .shiftFunct7 ∧
      decode 0x00431293#32 = .ok (.slli 5#5 6#5 4#5) := by decide

/-- The last aligned word of memory, the first one past it, a misaligned address. -/
theorem witness_MemReadRule :
    ((0xFFFC#32 : Word).toNat % 4 = 0 ∧ (0xFFFC#32 : Word).toNat + 4 ≤ State.reset.config.memSize) ∧
      ((0x10000#32 : Word).toNat % 4 = 0 ∧ (0x10000#32 : Word).toNat + 4 > State.reset.config.memSize) ∧
      (0xFFFE#32 : Word).toNat % 4 ≠ 0 := by decide

theorem witness_MemWriteRule :
    ((0xFFFF#32 : Word).toNat % 1 = 0 ∧ (0xFFFF#32 : Word).toNat + 1 ≤ State.reset.config.memSize) ∧
      ((0x10000#32 : Word).toNat % 1 = 0 ∧ (0x10000#32 : Word).toNat + 1 > State.reset.config.memSize) ∧
      (0xFFFF#32 : Word).toNat % 2 ≠ 0 := by decide

theorem witness_MixedWidthReads :
    ∃ m, memWrite State.reset 0xFFFC#32 4 (0xAA#8 ++ 0xBB#8 ++ 0xCC#8 ++ 0xDD#8) = .ok m ∧
      Memory.byte m 0xFFFF = 0xAA#8 := ⟨_, rfl, by decide⟩

theorem witness_CanonicalMemoryIsDetermined :
    Memory.Wf [(3, 1#8), (7, 2#8)] ∧ Memory.Wf (Memory.set (Memory.set [] 7 2#8) 3 1#8) ∧
      Memory.set (Memory.set [] 7 2#8) 3 1#8 = [(3, 1#8), (7, 2#8)] := by decide

/-- Word 1 of a two-word image, the first address past it, an odd address inside it. -/
theorem witness_FetchRule :
    ((4#32 : Word).toNat < 4 * (before 4#32 0x13#32 []).image.length ∧ (4#32 : Word).toNat % 4 = 0) ∧
      (8#32 : Word).toNat ≥ 4 * (before 4#32 0x13#32 []).image.length ∧ (6#32 : Word).toNat % 4 ≠ 0 := by decide

theorem witness_StoreIntoTextIsFetched :
    (∃ m, memWrite (before 4#32 0x13#32 []) 4#32 4 0x73#32 = .ok m) ∧
      (4#32 : Word).toNat < (before 4#32 0x13#32 []).imageEnd := ⟨⟨_, rfl⟩, by decide⟩

/-- A state in which the step is that of a decoded instruction: the last word of its image, one step below the bound. -/
def atBound : State := { before 4#32 0xFFF30293#32 [] with steps := 999 }

theorem witness_StepRunsTheDecodedInstruction :
    atBound.status = .running ∧ atBound.steps < atBound.config.maxSteps ∧ atBound.pc.toNat < atBound.imageEnd ∧
      atBound.pc.toNat % 4 = 0 ∧
      decode (Memory.byte atBound.mem (atBound.pc.toNat + 3) ++ Memory.byte atBound.mem (atBound.pc.toNat + 2) ++
        Memory.byte atBound.mem (atBound.pc.toNat + 1) ++ Memory.byte atBound.mem atBound.pc.toNat) =
          .ok (.addi 5#5 6#5 (-1#12)) := by decide

theorem witness_FetchAndDecodeTrap_fetch :
    let s := { atBound with pc := 8#32 }
    s.status = .running ∧ s.steps < s.config.maxSteps ∧ s.pc.toNat ≥ s.imageEnd := by decide

theorem witness_FetchAndDecodeTrap_misaligned :
    let s := { atBound with pc := 2#32 }
    s.status = .running ∧ s.steps < s.config.maxSteps ∧ s.pc.toNat % 4 ≠ 0 := by decide

theorem witness_FetchAndDecodeTrap_decode :
    let s := { atBound with pc := 0#32 }
    s.status = .running ∧ s.steps < s.config.maxSteps ∧ fetch s s.pc = .ok 0#32 ∧
      ∀ row ∈ opcodeRows, ¬row.Matches 0#32 := by decide

theorem witness_StepLimitRule :
    let s := { atBound with steps := 1000 }
    s.status = .running ∧ s.config.maxSteps ≤ s.steps := by decide

theorem witness_WhereAStepStops_fault : State.reset.status ≠ .running ∧ step State.reset = .fault .noStep :=
  ⟨by decide, rfl⟩

theorem witness_WhereAStepStops_directive :
    step (hostState .uninitialized (.assemble ['.', 'x'])) = .refused (.directive 1) := rfl

/-- An image of two words in a memory of four bytes. -/
theorem witness_WhereAStepStops_image :
    step { hostState .uninitialized (.assemble "ecall\\necall".toList) with config := ⟨4, 1⟩ } =
      .refused .imageTooLarge := rfl

theorem witness_WhereThePcGoes_stays :
    ∃ t, exec .ecall State.reset = .next t ∧ t.steps = State.reset.steps := ⟨_, rfl, by decide⟩

theorem witness_WhereThePcGoes_moves :
    ∃ t, exec (.jal 1#5 (-8#21)) State.reset = .next t ∧ t.steps = State.reset.steps + 1 ∧
      t.pc ≠ State.reset.pc + 4#32 := ⟨_, rfl, by decide⟩

theorem witness_InstructionFrame_register :
    ∃ t, exec (.addi 5#5 6#5 1#12) State.reset = .next t ∧ storeRange (.addi 5#5 6#5 1#12) State.reset = none ∧
      destination (.addi 5#5 6#5 1#12) ≠ some 6#5 := ⟨_, rfl, by decide⟩

theorem witness_InstructionFrame_store :
    ∃ t, exec (.sw 7#5 6#5 4#12) State.reset = .next t ∧
      storeRange (.sw 7#5 6#5 4#12) State.reset = some (4, 4) := ⟨_, rfl, by decide⟩

theorem witness_ShiftImmediateRule :
    (0b0000001#7 : BitVec 7) ≠ 0b0000000#7 ∧ (0b0000001#7 : BitVec 7) ≠ 0b0100000#7 := by decide

/-- JAL with an aligned target, wrapped below 0, and with one that is no multiple of 4. -/
theorem witness_JalRule :
    let s := before 0#32 0#32 []
    (((0xFFFFFFF8#32 : Word).toNat : Int) = (s.pc.toNat + (-8#21 : BitVec 21).toInt) % 2 ^ 32 ∧
        (0xFFFFFFF8#32 : Word).toNat % 4 = 0) ∧
      (((2#32 : Word).toNat : Int) = (s.pc.toNat + (2#21 : BitVec 21).toInt) % 2 ^ 32 ∧ (2#32 : Word).toNat % 4 ≠ 0) := by
  decide

/-- JALR with an odd sum whose cleared target is aligned, and with one whose target is not; an illegal funct3. -/
theorem witness_JalrRule :
    let s := before 0#32 0#32 [(5#5, 8#32)]
    (((8#32 : Word).toNat : Int) = ((s.x 5#5).toNat + (1#12 : BitVec 12).toInt) % 2 ^ 32 / 2 * 2 ∧
        (8#32 : Word).toNat % 4 = 0) ∧
      (((0xA#32 : Word).toNat : Int) = ((s.x 5#5).toNat + (3#12 : BitVec 12).toInt) % 2 ^ 32 / 2 * 2 ∧
        (0xA#32 : Word).toNat % 4 ≠ 0) ∧ (1#3 : BitVec 3) ≠ 0b000#3 := by decide

/-- The three cases of BEQ and BNE: taken to an aligned target, taken to another, not taken. -/
theorem witness_BranchEqualRule :
    let s := before 0x10#32 0#32 [(6#5, 3#32), (7#5, 3#32)]
    (s.x 6#5 = s.x 7#5 ∧ ((0x18#32 : Word).toNat : Int) = (s.pc.toNat + (8#13 : BitVec 13).toInt) % 2 ^ 32 ∧
        (0x18#32 : Word).toNat % 4 = 0) ∧
      (((0x16#32 : Word).toNat : Int) = (s.pc.toNat + (6#13 : BitVec 13).toInt) % 2 ^ 32 ∧
        (0x16#32 : Word).toNat % 4 ≠ 0) ∧ s.x 6#5 ≠ s.x 0#5 := by decide

theorem witness_BranchSignedRule :
    let s := before 0x10#32 0#32 [(6#5, 0x80000000#32), (7#5, 0x7FFFFFFF#32)]
    ((s.x 6#5).toInt < (s.x 7#5).toInt ∧
        ((0x18#32 : Word).toNat : Int) = (s.pc.toNat + (8#13 : BitVec 13).toInt) % 2 ^ 32 ∧
        (0x18#32 : Word).toNat % 4 = 0) ∧
      (((0x16#32 : Word).toNat : Int) = (s.pc.toNat + (6#13 : BitVec 13).toInt) % 2 ^ 32 ∧
        (0x16#32 : Word).toNat % 4 ≠ 0) ∧ (s.x 7#5).toInt ≤ (s.x 7#5).toInt := by decide

theorem witness_BranchUnsignedRule :
    let s := before 0x10#32 0#32 [(6#5, 0#32), (7#5, 0xFFFFFFFF#32)]
    ((s.x 6#5).toNat < (s.x 7#5).toNat ∧
        ((0x18#32 : Word).toNat : Int) = (s.pc.toNat + (8#13 : BitVec 13).toInt) % 2 ^ 32 ∧
        (0x18#32 : Word).toNat % 4 = 0) ∧
      (((0x16#32 : Word).toNat : Int) = (s.pc.toNat + (6#13 : BitVec 13).toInt) % 2 ^ 32 ∧
        (0x16#32 : Word).toNat % 4 ≠ 0) ∧ (s.x 7#5).toNat ≤ (s.x 7#5).toNat := by decide

/-- The last byte of memory, and the first past it. -/
theorem witness_LoadByteRule :
    let s := before 0#32 0#32 [(6#5, 0xFFFF#32)]
    (effectiveAddress s 6#5 0#12).toNat < s.config.memSize ∧
      s.config.memSize ≤ (effectiveAddress s 6#5 1#12).toNat := by decide

/-- The last halfword, an odd address, the first halfword past the end. -/
theorem witness_LoadHalfRule :
    let s := before 0#32 0#32 [(6#5, 0xFFFE#32)]
    ((effectiveAddress s 6#5 0#12).toNat % 2 = 0 ∧ (effectiveAddress s 6#5 0#12).toNat + 2 ≤ s.config.memSize) ∧
      (effectiveAddress s 6#5 1#12).toNat % 2 ≠ 0 ∧
      ((effectiveAddress s 6#5 2#12).toNat % 2 = 0 ∧ s.config.memSize < (effectiveAddress s 6#5 2#12).toNat + 2) := by
  decide

/-- The last word, an address off by two, the first word past the end. -/
theorem witness_LoadWordRule :
    let s := before 0#32 0#32 [(6#5, 0xFFFC#32)]
    ((effectiveAddress s 6#5 0#12).toNat % 4 = 0 ∧ (effectiveAddress s 6#5 0#12).toNat + 4 ≤ s.config.memSize) ∧
      (effectiveAddress s 6#5 2#12).toNat % 4 ≠ 0 ∧
      ((effectiveAddress s 6#5 4#12).toNat % 4 = 0 ∧ s.config.memSize < (effectiveAddress s 6#5 4#12).toNat + 4) := by
  decide

theorem witness_StoreByteRule :
    let s := before 0#32 0#32 [(6#5, 0xFFFF#32), (7#5, 0xEE#32)]
    (effectiveAddress s 6#5 0#12).toNat < s.config.memSize ∧
      s.config.memSize ≤ (effectiveAddress s 6#5 1#12).toNat := by decide

theorem witness_StoreHalfRule :
    let s := before 0#32 0#32 [(6#5, 0xFFFE#32), (7#5, 0xEE#32)]
    ((effectiveAddress s 6#5 0#12).toNat % 2 = 0 ∧ (effectiveAddress s 6#5 0#12).toNat + 2 ≤ s.config.memSize) ∧
      (effectiveAddress s 6#5 1#12).toNat % 2 ≠ 0 ∧
      ((effectiveAddress s 6#5 2#12).toNat % 2 = 0 ∧ s.config.memSize < (effectiveAddress s 6#5 2#12).toNat + 2) := by
  decide

theorem witness_StoreWordRule :
    let s := before 0#32 0#32 [(6#5, 0xFFFC#32), (7#5, 0xEE#32)]
    ((effectiveAddress s 6#5 0#12).toNat % 4 = 0 ∧ (effectiveAddress s 6#5 0#12).toNat + 4 ≤ s.config.memSize) ∧
      (effectiveAddress s 6#5 2#12).toNat % 4 ≠ 0 ∧
      ((effectiveAddress s 6#5 4#12).toNat % 4 = 0 ∧ s.config.memSize < (effectiveAddress s 6#5 4#12).toNat + 4) := by
  decide

theorem witness_ConstructResets :
    let s := hostState (.trapped (.illegalInstruction 0#32)) .construct
    s.status ≠ .running ∧ s.calls = .construct :: [] := by decide

/-- An image that fills memory exactly. -/
theorem witness_AssembleLoadsTheImage :
    let s := { hostState .uninitialized (.assemble "ecall".toList) with config := ⟨4, 1⟩ }
    s.status ≠ .running ∧ s.calls = .assemble "ecall".toList :: [] ∧ assembleText "ecall".toList = .ok [0x73#32] ∧
      4 * [0x73#32].length ≤ s.config.memSize := by decide

theorem witness_FailedAssembleChangesNothing :
    let s := hostState .assembled (.assemble "mul x1, x2, x3".toList)
    s.status ≠ .running ∧ s.calls = .assemble "mul x1, x2, x3".toList :: [] ∧
      assembleText "mul x1, x2, x3".toList = .error (.failed (.unknownMnemonic 1)) := by decide

theorem witness_AssembledWordsAreInstructions : assembleText "ecall".toList = .ok [0x73#32] := by decide

theorem witness_OneWordPerInstructionLine_words :
    (∃ sts, parseLines 1 (splitLines (unescape "a:\\necall".toList)) = .ok sts) ∧
      assembleText "a:\\necall".toList = .ok [0x73#32] := ⟨⟨_, rfl⟩, by decide⟩

theorem witness_OneWordPerInstructionLine_undefined :
    ∃ sts t st, parseLines 1 (splitLines (unescape "jal x1, b".toList)) = .ok sts ∧ labelPass 0 sts [] = .ok t ∧
      st ∈ sts ∧ st.reference = some ['b'] ∧ ∀ st' ∈ sts, st'.label ≠ some ['b'] :=
  ⟨[⟨1, 1, none, some (['j', 'a', 'l'], [.name ['x', '1'], .name ['b']])⟩], [],
    ⟨1, 1, none, some (['j', 'a', 'l'], [.name ['x', '1'], .name ['b']])⟩, by decide⟩

theorem witness_RunStartsOrFails_halted :
    let s := hostState (.halted .exit) .run
    s.calls = .run :: [] ∧ s.status = .halted .exit := by decide

theorem witness_RunStartsOrFails_assembled :
    let s := hostState .assembled .run
    s.calls = .run :: [] ∧ s.status = .assembled := by decide

theorem witness_RunStartsOrFails_fails :
    let s := hostState (.trapped (.illegalInstruction 0#32)) .run
    s.calls = .run :: [] ∧ s.status = .trapped (.illegalInstruction 0#32) ∧
      (hostState .uninitialized .run).status = .uninitialized := by decide

theorem witness_GetStateReports :
    (hostState .assembled .getState).status ≠ .running ∧ (hostState .assembled .getState).calls = .getState :: [] := by
  decide

theorem witness_GetTextListsTheImage :
    let s := { hostState .assembled .getText with image := [0x73#32] }
    s.status ≠ .running ∧ s.calls = .getText :: [] ∧ s.image[0]? = some 0x73#32 ∧ decode 0x73#32 = .ok .ecall := by
  decide

theorem witness_GetLogsDrains :
    let s := { hostState .assembled .getLogs with calls := [.getLogs, .getLogs], log := [.stepLimit 0#32] }
    s.status ≠ .running ∧ s.calls = .getLogs :: .getLogs :: [] := by decide

/-- A running state that meets the invariant and takes a step, one below the step bound. -/
theorem witness_StepKeepsInvariant : atBound.Inv ∧ ∃ t, step atBound = .next t :=
  ⟨⟨by decide, by decide, by decide, by decide, by decide, by decide⟩, ⟨_, rfl⟩⟩

/-- The same for the host's turn. -/
theorem witness_StepKeepsInvariant_host :
    (hostState .assembled .run).Inv ∧ ∃ t, step (hostState .assembled .run) = .next t :=
  ⟨⟨by decide, by decide, by decide, by decide, by decide, by decide⟩, ⟨_, rfl⟩⟩

theorem witness_StatusChangesAreTheTable :
    (∃ t, step atBound = .next t) ∧ ∃ t, step (hostState (.halted .exit) .run) = .next t := ⟨⟨_, rfl⟩, ⟨_, rfl⟩⟩

theorem witness_EveryRunEnds : atBound.status = .running ∧ 0 < atBound.config.maxSteps - atBound.steps := by decide

/-- A step of the hart that adds an entry to a log that is not empty. -/
theorem witness_HartNeverReadsTheLog :
    let s := { before 0#32 0#32 [] with log := [.stepLimit 0#32] }
    s.status = .running ∧ ∃ t, step s = .next t ∧ t.log.length = 2 := ⟨by decide, _, rfl, by decide⟩

theorem witness_LaunchedWordRuns :
    State.reset.config.Legal ∧ 0 < State.reset.config.maxSteps ∧ decode 0x00500093#32 = .ok (.addi 1#5 0#5 5#12) := by
  decide

end Sys2Proof.Tests
end

section
/-! Proofs: the register file of 10_state.md section 2 (R11, R12, R14). -/

namespace Sys2Proof.Machine

/-- Settles O6: the register part is `State.setX_x`, with x0 as its two cases at `0#5`; the frame is one lemma per
field that `State.setX` leaves alone. -/
theorem registerFileRule : Obligations.RegisterFileRule := by
  unfold Obligations.RegisterFileRule
  intro s r q v
  exact ⟨State.x_zero s, State.setX_zero s v, State.setX_x s r q v,
    State.setX_pc s r v, State.setX_status s r v, State.setX_steps s r v,
    State.setX_mem s r v, State.setX_log s r v, SameOutside.of_setX s r v⟩

end Sys2Proof.Machine
end

section
/-! Proofs: the access primitives of 20_memory.md section 4 (R43, R44). What a successful access does is
`memRead_ok_iff` and `memWrite_ok_iff`; the traps, in the order in which they are checked, are stated here. -/

namespace Sys2Proof.Machine

/-- A misaligned read traps whatever the bounds say: alignment is checked first (R43). -/
theorem memRead_misaligned {s : State} {addr : Word} {n : Nat} (h : addr.toNat % n ≠ 0) :
    memRead s addr n = .error (.misaligned .load addr) :=
  if_pos h

theorem memRead_outOfBounds {s : State} {addr : Word} {n : Nat} (ha : addr.toNat % n = 0)
    (hb : addr.toNat + n > s.config.memSize) : memRead s addr n = .error (.outOfBounds .load addr) := by
  rw [memRead, if_neg (not_not.mpr ha), if_pos hb]

/-- A misaligned write traps whatever the bounds say: alignment is checked first (R44). -/
theorem memWrite_misaligned {s : State} {addr : Word} {n : Nat} {v : BitVec (8 * n)} (h : addr.toNat % n ≠ 0) :
    memWrite s addr n v = .error (.misaligned .store addr) :=
  if_pos h

theorem memWrite_outOfBounds {s : State} {addr : Word} {n : Nat} {v : BitVec (8 * n)} (ha : addr.toNat % n = 0)
    (hb : addr.toNat + n > s.config.memSize) : memWrite s addr n v = .error (.outOfBounds .store addr) := by
  rw [memWrite, if_neg (not_not.mpr ha), if_pos hb]

/-- Settles O7: one lemma per trap, and `Memory.readLE_byte` for the bytes of a read that succeeds. It holds for every
width `n`, so the restriction to 1, 2 and 4 is not used. -/
theorem memReadRule : Obligations.MemReadRule := by
  unfold Obligations.MemReadRule
  intro s addr n _
  refine ⟨memRead_misaligned, memRead_outOfBounds, fun ha hb => ?_⟩
  exact ⟨Memory.readLE s.mem addr.toNat n, memRead_ok_iff.mpr ⟨ha, hb, rfl⟩, Memory.readLE_byte s.mem addr.toNat n⟩

/-- Settles O8: one lemma per trap, then `Memory.writeLE_inside` for the bytes written and `Memory.writeLE_outside` for
the frame. As for reads, it holds for every width `n`. -/
theorem memWriteRule : Obligations.MemWriteRule := by
  unfold Obligations.MemWriteRule
  intro s addr n v _
  refine ⟨memWrite_misaligned, memWrite_outOfBounds, fun ha hb => ?_⟩
  exact ⟨Memory.writeLE s.mem addr.toNat n v, memWrite_ok_iff.mpr ⟨ha, hb, rfl⟩,
    fun _ => Memory.writeLE_inside s.mem addr.toNat n v,
    fun _ => Memory.writeLE_outside s.mem addr.toNat n v⟩

end Sys2Proof.Machine
end

section
/-! Proofs: the integer register-immediate instructions of 40_integer_register_immediate.md (R111 to R121). Each is
`writeBack` of one value, so `writes_of_writeBack` gives its completion and frame; what is stated here is how the
decoder reads its word, and the 0 or 1 of a comparison. -/

namespace Sys2Proof

/-! ## Decoding OP-IMM and the upper-immediate words (R81) -/

theorem decode_encI_opImm (imm : BitVec 12) (rs1 : Reg) (f3 : BitVec 3) (rd : Reg) :
    decode (encI imm rs1 f3 rd 0b0010011#7) = decodeOpImm (encI imm rs1 f3 rd 0b0010011#7) := by
  simp [decode]

theorem decode_addi (imm : BitVec 12) (rs1 rd : Reg) :
    decode (encI imm rs1 0b000#3 rd 0b0010011#7) = .ok (.addi rd rs1 imm) := by
  simp [decode_encI_opImm, decodeOpImm]

theorem decode_slti (imm : BitVec 12) (rs1 rd : Reg) :
    decode (encI imm rs1 0b010#3 rd 0b0010011#7) = .ok (.slti rd rs1 imm) := by
  simp [decode_encI_opImm, decodeOpImm]

theorem decode_sltiu (imm : BitVec 12) (rs1 rd : Reg) :
    decode (encI imm rs1 0b011#3 rd 0b0010011#7) = .ok (.sltiu rd rs1 imm) := by
  simp [decode_encI_opImm, decodeOpImm]

theorem decode_xori (imm : BitVec 12) (rs1 rd : Reg) :
    decode (encI imm rs1 0b100#3 rd 0b0010011#7) = .ok (.xori rd rs1 imm) := by
  simp [decode_encI_opImm, decodeOpImm]

theorem decode_ori (imm : BitVec 12) (rs1 rd : Reg) :
    decode (encI imm rs1 0b110#3 rd 0b0010011#7) = .ok (.ori rd rs1 imm) := by
  simp [decode_encI_opImm, decodeOpImm]

theorem decode_andi (imm : BitVec 12) (rs1 rd : Reg) :
    decode (encI imm rs1 0b111#3 rd 0b0010011#7) = .ok (.andi rd rs1 imm) := by
  simp [decode_encI_opImm, decodeOpImm]

/-- The shift-immediate words are I-format words whose upper immediate bits are inst[31:25] (R77). -/
theorem decode_encI_shiftLeft (imm : BitVec 12) (rs1 rd : Reg) :
    decode (encI imm rs1 0b001#3 rd 0b0010011#7) = decodeShiftLeft (encI imm rs1 0b001#3 rd 0b0010011#7) := by
  simp [decode_encI_opImm, decodeOpImm]

theorem decode_encI_shiftRight (imm : BitVec 12) (rs1 rd : Reg) :
    decode (encI imm rs1 0b101#3 rd 0b0010011#7) = decodeShiftRight (encI imm rs1 0b101#3 rd 0b0010011#7) := by
  simp [decode_encI_opImm, decodeOpImm]

theorem decode_slli (shamt : BitVec 5) (rs1 rd : Reg) :
    decode (encI (0b0000000#7 ++ shamt) rs1 0b001#3 rd 0b0010011#7) = .ok (.slli rd rs1 shamt) := by
  rw [decode_encI_shiftLeft, decodeShiftLeft, funct7_encI_shift]
  simp

theorem decode_srli (shamt : BitVec 5) (rs1 rd : Reg) :
    decode (encI (0b0000000#7 ++ shamt) rs1 0b101#3 rd 0b0010011#7) = .ok (.srli rd rs1 shamt) := by
  rw [decode_encI_shiftRight, decodeShiftRight, funct7_encI_shift]
  simp

theorem decode_srai (shamt : BitVec 5) (rs1 rd : Reg) :
    decode (encI (0b0100000#7 ++ shamt) rs1 0b101#3 rd 0b0010011#7) = .ok (.srai rd rs1 shamt) := by
  rw [decode_encI_shiftRight, decodeShiftRight, funct7_encI_shift]
  simp

/-- Only inst[31:25] = 0000000 is a left shift (R117). -/
theorem decode_shiftLeft_illegal {f7 : BitVec 7} (h : f7 ≠ 0b0000000#7) (shamt : BitVec 5) (rs1 rd : Reg) :
    decode (encI (f7 ++ shamt) rs1 0b001#3 rd 0b0010011#7) = .error .shiftFunct7 := by
  rw [decode_encI_shiftLeft, decodeShiftLeft, funct7_encI_shift]
  split
  · contradiction
  · rfl

/-- Only inst[31:25] = 0000000 and 0100000 are right shifts (R118, R119). -/
theorem decode_shiftRight_illegal {f7 : BitVec 7} (hl : f7 ≠ 0b0000000#7) (ha : f7 ≠ 0b0100000#7) (shamt : BitVec 5)
    (rs1 rd : Reg) : decode (encI (f7 ++ shamt) rs1 0b101#3 rd 0b0010011#7) = .error .shiftFunct7 := by
  rw [decode_encI_shiftRight, decodeShiftRight, funct7_encI_shift]
  split
  · contradiction
  · contradiction
  · rfl

theorem decode_lui (imm : BitVec 20) (rd : Reg) : decode (encU imm rd 0b0110111#7) = .ok (.lui rd imm) := by
  simp [decode]

theorem decode_auipc (imm : BitVec 20) (rd : Reg) : decode (encU imm rd 0b0010111#7) = .ok (.auipc rd imm) := by
  simp [decode]

end Sys2Proof

namespace Sys2Proof.Machine

/-! ## The value of a comparison (R112) -/

theorem boolWord_lessSigned (a b : Word) :
    boolWord (lessSigned a b) = if a.toInt < b.toInt then 1#32 else 0#32 := by
  simp [boolWord, lessSigned]

theorem boolWord_lessUnsigned (a b : Word) :
    boolWord (lessUnsigned a b) = if a.toNat < b.toNat then 1#32 else 0#32 := by
  simp [boolWord, lessUnsigned]

/-- A signed comparison with a sign-extended immediate is one with the immediate itself (R112). -/
theorem boolWord_lessSigned_sext (a : Word) (imm : BitVec 12) :
    boolWord (lessSigned a (sext imm)) = if a.toInt < imm.toInt then 1#32 else 0#32 := by
  rw [boolWord_lessSigned, sext_toInt imm (by decide)]

/-- An unsigned comparison with a sign-extended immediate is one with the immediate modulo 2^32 (R113). -/
theorem boolWord_lessUnsigned_sext (a : Word) (imm : BitVec 12) :
    boolWord (lessUnsigned a (sext imm)) = if (a.toNat : Int) < imm.toInt % 2 ^ 32 then 1#32 else 0#32 := by
  rw [boolWord_lessUnsigned, ← sext_toNat imm (by decide)]
  simp only [Nat.cast_lt]

/-! ## The obligations -/

/-- Settles O20: the value is `add_sext_toNat`. -/
theorem addImmediateRule : Obligations.AddImmediateRule := by
  unfold Obligations.AddImmediateRule
  intro s rd rs1 imm
  exact ⟨decode_addi imm rs1 rd, s.x rs1 + sext imm, add_sext_toNat (s.x rs1) imm (by decide),
    writes_of_writeBack rfl⟩

/-- Settles O21: SLTIU's comparison is unsigned, but its immediate is sign-extended first (R113), so a negative
immediate counts as 2^32 plus its value (`boolWord_lessUnsigned_sext`). -/
theorem setLessThanImmediateRule : Obligations.SetLessThanImmediateRule := by
  unfold Obligations.SetLessThanImmediateRule
  intro s rd rs1 imm
  refine ⟨decode_slti imm rs1 rd, decode_sltiu imm rs1 rd, ?_, ?_⟩
  · rw [← boolWord_lessSigned_sext]
    exact writes_of_writeBack rfl
  · rw [← boolWord_lessUnsigned_sext]
    exact writes_of_writeBack rfl

/-- Settles O22: `sext_bit` gives every bit of the extended immediate. -/
theorem bitwiseImmediateRule : Obligations.BitwiseImmediateRule := by
  unfold Obligations.BitwiseImmediateRule
  intro s rd rs1 imm
  refine ⟨decode_xori imm rs1 rd, decode_ori imm rs1 rd, decode_andi imm rs1 rd,
    s.x rs1 ^^^ sext imm, s.x rs1 ||| sext imm, s.x rs1 &&& sext imm, fun k hk => ?_,
    writes_of_writeBack rfl, writes_of_writeBack rfl, writes_of_writeBack rfl⟩
  rw [BitVec.getLsbD_xor, BitVec.getLsbD_or, BitVec.getLsbD_and, sext_bit imm hk]
  exact ⟨rfl, rfl, rfl⟩

/-- Settles O23: one decoding lemma per legal word and per class of illegal ones, and each shift's value as
arithmetic from the lemmas about `shiftLeft`, `shiftRightLogical` and `shiftRightArith`. -/
theorem shiftImmediateRule : Obligations.ShiftImmediateRule := by
  unfold Obligations.ShiftImmediateRule
  intro s rd rs1 shamt f7
  refine ⟨decode_slli shamt rs1 rd, decode_srli shamt rs1 rd, decode_srai shamt rs1 rd,
    fun h => decode_shiftLeft_illegal h shamt rs1 rd, fun hl ha => decode_shiftRight_illegal hl ha shamt rs1 rd,
    shiftLeft (s.x rs1) shamt, shiftRightLogical (s.x rs1) shamt, shiftRightArith (s.x rs1) shamt, ?_⟩
  exact ⟨shiftLeft_toNat .., shiftRightLogical_toNat .., shiftRightArith_toInt ..,
    writes_of_writeBack rfl, writes_of_writeBack rfl, writes_of_writeBack rfl⟩

/-- Settles O24: both values are `upperImm`, which AUIPC adds to the pc of its own state, the instruction's address. -/
theorem upperImmediateRule : Obligations.UpperImmediateRule := by
  unfold Obligations.UpperImmediateRule
  intro s rd imm
  refine ⟨decode_lui imm rd, decode_auipc imm rd, upperImm imm, s.pc + upperImm imm, upperImm_toNat imm, ?_,
    writes_of_writeBack rfl, writes_of_writeBack rfl⟩
  rw [BitVec.toNat_add, upperImm_toNat]

end Sys2Proof.Machine
end

section
/-! Proofs: the integer register-register instructions of 41_integer_register_register.md (R130 to R140). As for the
register-immediate ones, each is `writeBack` of one value, so `writes_of_writeBack` gives its completion and frame; what
is stated here is how the decoder reads its word, and the value of a difference. The values of the shifts and of the
comparisons are the lemmas already used for their immediate forms. -/

namespace Sys2Proof

/-! ## Decoding OP (R81, R130) -/

theorem decode_encR_op (f7 : BitVec 7) (rs2 rs1 : Reg) (f3 : BitVec 3) (rd : Reg) :
    decode (encR f7 rs2 rs1 f3 rd 0b0110011#7) = decodeOp (encR f7 rs2 rs1 f3 rd 0b0110011#7) := by
  simp [decode]

theorem decode_add (rs2 rs1 rd : Reg) :
    decode (encR 0b0000000#7 rs2 rs1 0b000#3 rd 0b0110011#7) = .ok (.add rd rs1 rs2) := by
  simp [decode_encR_op, decodeOp]

theorem decode_sub (rs2 rs1 rd : Reg) :
    decode (encR 0b0100000#7 rs2 rs1 0b000#3 rd 0b0110011#7) = .ok (.sub rd rs1 rs2) := by
  simp [decode_encR_op, decodeOp]

theorem decode_sll (rs2 rs1 rd : Reg) :
    decode (encR 0b0000000#7 rs2 rs1 0b001#3 rd 0b0110011#7) = .ok (.sll rd rs1 rs2) := by
  simp [decode_encR_op, decodeOp]

theorem decode_slt (rs2 rs1 rd : Reg) :
    decode (encR 0b0000000#7 rs2 rs1 0b010#3 rd 0b0110011#7) = .ok (.slt rd rs1 rs2) := by
  simp [decode_encR_op, decodeOp]

theorem decode_sltu (rs2 rs1 rd : Reg) :
    decode (encR 0b0000000#7 rs2 rs1 0b011#3 rd 0b0110011#7) = .ok (.sltu rd rs1 rs2) := by
  simp [decode_encR_op, decodeOp]

theorem decode_xor (rs2 rs1 rd : Reg) :
    decode (encR 0b0000000#7 rs2 rs1 0b100#3 rd 0b0110011#7) = .ok (.xor rd rs1 rs2) := by
  simp [decode_encR_op, decodeOp]

theorem decode_srl (rs2 rs1 rd : Reg) :
    decode (encR 0b0000000#7 rs2 rs1 0b101#3 rd 0b0110011#7) = .ok (.srl rd rs1 rs2) := by
  simp [decode_encR_op, decodeOp]

theorem decode_sra (rs2 rs1 rd : Reg) :
    decode (encR 0b0100000#7 rs2 rs1 0b101#3 rd 0b0110011#7) = .ok (.sra rd rs1 rs2) := by
  simp [decode_encR_op, decodeOp]

theorem decode_or (rs2 rs1 rd : Reg) :
    decode (encR 0b0000000#7 rs2 rs1 0b110#3 rd 0b0110011#7) = .ok (.or rd rs1 rs2) := by
  simp [decode_encR_op, decodeOp]

theorem decode_and (rs2 rs1 rd : Reg) :
    decode (encR 0b0000000#7 rs2 rs1 0b111#3 rd 0b0110011#7) = .ok (.and rd rs1 rs2) := by
  simp [decode_encR_op, decodeOp]

end Sys2Proof

namespace Sys2Proof.Machine

/-- A difference is taken modulo 2^32: a borrow wraps around (R132). The library's `BitVec.toNat_sub` says so without
negative numbers. -/
theorem sub_toNat (a b : Word) : ((a - b).toNat : Int) = (a.toNat - b.toNat : Int) % 2 ^ 32 := by
  have hb := b.isLt
  rw [BitVec.toNat_sub]
  omega

/-! ## The obligations -/

/-- Settles O25: the sum is the library's `BitVec.toNat_add`, the difference is `sub_toNat`. -/
theorem addSubRule : Obligations.AddSubRule := by
  unfold Obligations.AddSubRule
  intro s rd rs1 rs2
  exact ⟨decode_add rs2 rs1 rd, decode_sub rs2 rs1 rd, s.x rs1 + s.x rs2, s.x rs1 - s.x rs2,
    BitVec.toNat_add .., sub_toNat .., writes_of_writeBack rfl, writes_of_writeBack rfl⟩

/-- Settles O26: `shiftAmount_toNat` makes the low 5 bits of x[rs2] the amount modulo 32; the three values are then
those of the shifts by an immediate. -/
theorem shiftRegisterRule : Obligations.ShiftRegisterRule := by
  unfold Obligations.ShiftRegisterRule
  intro s rd rs1 rs2
  rw [← shiftAmount_toNat]
  exact ⟨decode_sll rs2 rs1 rd, decode_srl rs2 rs1 rd, decode_sra rs2 rs1 rd,
    shiftLeft (s.x rs1) (shiftAmount (s.x rs2)), shiftRightLogical (s.x rs1) (shiftAmount (s.x rs2)),
    shiftRightArith (s.x rs1) (shiftAmount (s.x rs2)),
    shiftLeft_toNat .., shiftRightLogical_toNat .., shiftRightArith_toInt ..,
    writes_of_writeBack rfl, writes_of_writeBack rfl, writes_of_writeBack rfl⟩

/-- Settles O27: `boolWord_lessSigned` and `boolWord_lessUnsigned` say which numbers each instruction compares. -/
theorem setLessThanRule : Obligations.SetLessThanRule := by
  unfold Obligations.SetLessThanRule
  intro s rd rs1 rs2
  rw [← boolWord_lessSigned, ← boolWord_lessUnsigned]
  exact ⟨decode_slt rs2 rs1 rd, decode_sltu rs2 rs1 rd, writes_of_writeBack rfl, writes_of_writeBack rfl⟩

/-- Settles O28: the library gives bit `k` of each logical operation, whatever `k` is. -/
theorem bitwiseRegisterRule : Obligations.BitwiseRegisterRule := by
  unfold Obligations.BitwiseRegisterRule
  intro s rd rs1 rs2
  exact ⟨decode_xor rs2 rs1 rd, decode_or rs2 rs1 rd, decode_and rs2 rs1 rd,
    s.x rs1 ^^^ s.x rs2, s.x rs1 ||| s.x rs2, s.x rs1 &&& s.x rs2,
    fun _ _ => ⟨BitVec.getLsbD_xor, BitVec.getLsbD_or, BitVec.getLsbD_and⟩,
    writes_of_writeBack rfl, writes_of_writeBack rfl, writes_of_writeBack rfl⟩

end Sys2Proof.Machine
end

section
/-! Proofs: the control transfers of 42_control_transfer.md (R151 to R158). JAL and JALR are `jumpAndLink`, the six
branches are `branchIf`, so the laws of those two operations give every case. What is stated here is how the decoder
reads the words, which number a target is, and what each negated condition says. -/

namespace Sys2Proof

/-! ## Decoding the control transfers (R74, R76, R81) -/

/-- A displacement put together with a final 0 has bit 0 clear, as the B and J formats ask (R74, R76). -/
theorem append_zero_bit_zero {n : Nat} (hi : BitVec n) : (hi ++ 0#1).getLsbD 0 = false := by
  rw [BitVec.getLsbD_append]
  simp

theorem decode_jal {off : BitVec 21} (h : off.getLsbD 0 = false) (rd : Reg) :
    decode (encJ off rd 0b1101111#7) = .ok (.jal rd off) := by
  simp [decode, immJ_encJ off rd _ h]

theorem decode_encI_jalr (imm : BitVec 12) (rs1 : Reg) (f3 : BitVec 3) (rd : Reg) :
    decode (encI imm rs1 f3 rd 0b1100111#7) = decodeJalr (encI imm rs1 f3 rd 0b1100111#7) := by
  simp [decode]

theorem decode_jalr (imm : BitVec 12) (rs1 rd : Reg) :
    decode (encI imm rs1 0b000#3 rd 0b1100111#7) = .ok (.jalr rd rs1 imm) := by
  simp [decode_encI_jalr, decodeJalr]

/-- Only funct3 = 000 is a JALR (R152). -/
theorem decode_jalr_illegal {f3 : BitVec 3} (h : f3 ≠ 0b000#3) (imm : BitVec 12) (rs1 rd : Reg) :
    decode (encI imm rs1 f3 rd 0b1100111#7) = .error .jalrFunct3 := by
  rw [decode_encI_jalr, decodeJalr, funct3_encI]
  split
  · contradiction
  · rfl

theorem decode_encB_branch (off : BitVec 13) (rs2 rs1 : Reg) (f3 : BitVec 3) :
    decode (encB off rs2 rs1 f3 0b1100011#7) = decodeBranch (encB off rs2 rs1 f3 0b1100011#7) := by
  simp [decode]

section
variable {off : BitVec 13} (h : off.getLsbD 0 = false) (rs2 rs1 : Reg)
include h

theorem decode_beq : decode (encB off rs2 rs1 0b000#3 0b1100011#7) = .ok (.beq rs1 rs2 off) := by
  simp [decode_encB_branch, decodeBranch, immB_encB off rs2 rs1 _ _ h]

theorem decode_bne : decode (encB off rs2 rs1 0b001#3 0b1100011#7) = .ok (.bne rs1 rs2 off) := by
  simp [decode_encB_branch, decodeBranch, immB_encB off rs2 rs1 _ _ h]

theorem decode_blt : decode (encB off rs2 rs1 0b100#3 0b1100011#7) = .ok (.blt rs1 rs2 off) := by
  simp [decode_encB_branch, decodeBranch, immB_encB off rs2 rs1 _ _ h]

theorem decode_bge : decode (encB off rs2 rs1 0b101#3 0b1100011#7) = .ok (.bge rs1 rs2 off) := by
  simp [decode_encB_branch, decodeBranch, immB_encB off rs2 rs1 _ _ h]

theorem decode_bltu : decode (encB off rs2 rs1 0b110#3 0b1100011#7) = .ok (.bltu rs1 rs2 off) := by
  simp [decode_encB_branch, decodeBranch, immB_encB off rs2 rs1 _ _ h]

theorem decode_bgeu : decode (encB off rs2 rs1 0b111#3 0b1100011#7) = .ok (.bgeu rs1 rs2 off) := by
  simp [decode_encB_branch, decodeBranch, immB_encB off rs2 rs1 _ _ h]

end

end Sys2Proof

namespace Sys2Proof.Machine

/-! ## The targets as numbers (R150 e, R152) -/

/-- The target of JAL and of a branch is the one word that is pc plus the displacement modulo 2^32. -/
theorem eq_relativeTarget {n : Nat} {s : State} {off : BitVec n} {target : Word} (hn : n ≤ 32)
    (h : (target.toNat : Int) = (s.pc.toNat + off.toInt) % 2 ^ 32) : target = relativeTarget s off := by
  apply BitVec.eq_of_toNat_eq
  exact_mod_cast h.trans (add_sext_toNat s.pc off hn).symm

/-- The target of JALR is the one word that is the sum modulo 2^32, rounded down to an even number. -/
theorem eq_indirectTarget {s : State} {rs1 : Reg} {imm : BitVec 12} {target : Word}
    (h : (target.toNat : Int) = ((s.x rs1).toNat + imm.toInt) % 2 ^ 32 / 2 * 2) : target = indirectTarget s rs1 imm := by
  apply BitVec.eq_of_toNat_eq
  rw [indirectTarget, clear_bit_zero_toNat]
  rw [← add_sext_toNat (s.x rs1) imm (by decide)] at h
  exact_mod_cast h

/-! ## The conditions as comparisons (R150 f) -/

theorem lessSigned_iff (a b : Word) : lessSigned a b = true ↔ a.toInt < b.toInt := decide_eq_true_iff

theorem not_lessSigned_iff (a b : Word) : (!lessSigned a b) = true ↔ b.toInt ≤ a.toInt := by
  rw [Bool.not_eq_true', ← Bool.not_eq_true, lessSigned_iff, not_lt]

theorem lessUnsigned_iff (a b : Word) : lessUnsigned a b = true ↔ a.toNat < b.toNat := decide_eq_true_iff

theorem not_lessUnsigned_iff (a b : Word) : (!lessUnsigned a b) = true ↔ b.toNat ≤ a.toNat := by
  rw [Bool.not_eq_true', ← Bool.not_eq_true, lessUnsigned_iff, not_lt]

/-! ## The obligations -/

/-- Settles O29: `encJ_pieces` makes the scattered fields a J-format word; with the target that of the model, the two
cases are those of `jumpAndLink`. -/
theorem jalRule : Obligations.JalRule := by
  unfold Obligations.JalRule
  intro s rd b20 b10 b11 b19
  rw [← encJ_pieces]
  refine ⟨decode_jal (append_zero_bit_zero _) rd, fun off target ht => ?_⟩
  obtain rfl := eq_relativeTarget (by decide) ht
  exact ⟨linksTo_of_jumpAndLink rfl, traps_of_jumpAndLink rfl⟩

/-- Settles O30: the target is computed from the state before the link is written, so `rd = rs1` is no case of its
own. -/
theorem jalrRule : Obligations.JalrRule := by
  unfold Obligations.JalrRule
  intro s rd rs1 imm f3 target
  refine ⟨decode_jalr imm rs1 rd, fun hf => decode_jalr_illegal hf imm rs1 rd, fun ht => ?_⟩
  obtain rfl := eq_indirectTarget ht
  exact ⟨linksTo_of_jumpAndLink rfl, traps_of_jumpAndLink rfl⟩

/-- Settles O31: both are `branchIf`, on the equality test and on its negation. -/
theorem branchEqualRule : Obligations.BranchEqualRule := by
  unfold Obligations.BranchEqualRule
  intro s rs1 rs2 b12 b10 b4 b11
  rw [← encB_pieces, ← encB_pieces]
  have hb := append_zero_bit_zero (b12 ++ b11 ++ b10 ++ b4)
  refine ⟨decode_beq hb rs2 rs1, decode_bne hb rs2 rs1, fun off target ht => ?_⟩
  obtain rfl := eq_relativeTarget (by decide) ht
  exact ⟨branchesOn_of_branchIf rfl decide_eq_true_iff, branchesOn_of_branchIf rfl (by simp)⟩

/-- Settles O32: both are `branchIf`, on the signed comparison and on its negation. -/
theorem branchSignedRule : Obligations.BranchSignedRule := by
  unfold Obligations.BranchSignedRule
  intro s rs1 rs2 b12 b10 b4 b11
  rw [← encB_pieces, ← encB_pieces]
  have hb := append_zero_bit_zero (b12 ++ b11 ++ b10 ++ b4)
  refine ⟨decode_blt hb rs2 rs1, decode_bge hb rs2 rs1, fun off target ht => ?_⟩
  obtain rfl := eq_relativeTarget (by decide) ht
  exact ⟨branchesOn_of_branchIf rfl (lessSigned_iff ..), branchesOn_of_branchIf rfl (not_lessSigned_iff ..)⟩

/-- Settles O33: both are `branchIf`, on the unsigned comparison and on its negation. -/
theorem branchUnsignedRule : Obligations.BranchUnsignedRule := by
  unfold Obligations.BranchUnsignedRule
  intro s rs1 rs2 b12 b10 b4 b11
  rw [← encB_pieces, ← encB_pieces]
  have hb := append_zero_bit_zero (b12 ++ b11 ++ b10 ++ b4)
  refine ⟨decode_bltu hb rs2 rs1, decode_bgeu hb rs2 rs1, fun off target ht => ?_⟩
  obtain rfl := eq_relativeTarget (by decide) ht
  exact ⟨branchesOn_of_branchIf rfl (lessUnsigned_iff ..), branchesOn_of_branchIf rfl (not_lessUnsigned_iff ..)⟩

end Sys2Proof.Machine
end

section
/-! Proofs: the loads and stores of 43_load_store.md (R171 to R178). Each load is `loadInto`, each store is `storeAt`,
so the laws of those two operations give the three cases of an access: success, misaligned, out of bounds. What is
stated here is how the decoder reads the words, and that LW extends nothing; which number a narrow load writes is
`sext_toInt` and `zext_toNat`. -/

namespace Sys2Proof

/-! ## Decoding LOAD and STORE (R72, R73, R81) -/

theorem decode_encI_load (imm : BitVec 12) (rs1 : Reg) (f3 : BitVec 3) (rd : Reg) :
    decode (encI imm rs1 f3 rd 0b0000011#7) = decodeLoad (encI imm rs1 f3 rd 0b0000011#7) := by
  simp [decode]

theorem decode_lb (imm : BitVec 12) (rs1 rd : Reg) :
    decode (encI imm rs1 0b000#3 rd 0b0000011#7) = .ok (.lb rd rs1 imm) := by
  simp [decode_encI_load, decodeLoad]

theorem decode_lh (imm : BitVec 12) (rs1 rd : Reg) :
    decode (encI imm rs1 0b001#3 rd 0b0000011#7) = .ok (.lh rd rs1 imm) := by
  simp [decode_encI_load, decodeLoad]

theorem decode_lw (imm : BitVec 12) (rs1 rd : Reg) :
    decode (encI imm rs1 0b010#3 rd 0b0000011#7) = .ok (.lw rd rs1 imm) := by
  simp [decode_encI_load, decodeLoad]

theorem decode_lbu (imm : BitVec 12) (rs1 rd : Reg) :
    decode (encI imm rs1 0b100#3 rd 0b0000011#7) = .ok (.lbu rd rs1 imm) := by
  simp [decode_encI_load, decodeLoad]

theorem decode_lhu (imm : BitVec 12) (rs1 rd : Reg) :
    decode (encI imm rs1 0b101#3 rd 0b0000011#7) = .ok (.lhu rd rs1 imm) := by
  simp [decode_encI_load, decodeLoad]

theorem decode_encS_store (imm : BitVec 12) (rs2 rs1 : Reg) (f3 : BitVec 3) :
    decode (encS imm rs2 rs1 f3 0b0100011#7) = decodeStore (encS imm rs2 rs1 f3 0b0100011#7) := by
  simp [decode]

theorem decode_sb (imm : BitVec 12) (rs2 rs1 : Reg) :
    decode (encS imm rs2 rs1 0b000#3 0b0100011#7) = .ok (.sb rs2 rs1 imm) := by
  simp [decode_encS_store, decodeStore]

theorem decode_sh (imm : BitVec 12) (rs2 rs1 : Reg) :
    decode (encS imm rs2 rs1 0b001#3 0b0100011#7) = .ok (.sh rs2 rs1 imm) := by
  simp [decode_encS_store, decodeStore]

theorem decode_sw (imm : BitVec 12) (rs2 rs1 : Reg) :
    decode (encS imm rs2 rs1 0b010#3 0b0100011#7) = .ok (.sw rs2 rs1 imm) := by
  simp [decode_encS_store, decodeStore]

end Sys2Proof

namespace Sys2Proof.Machine

/-! ## The value of LW (R173) -/

/-- LW's bytes fill the register: there is nothing to extend (R173). -/
theorem zext_word (v : Word) : zext v = v := BitVec.setWidth_eq v

/-! ## The obligations -/

/-- Settles O35: every address is a multiple of 1, so a byte access is never misaligned and only the bounds remain. -/
theorem loadByteRule : Obligations.LoadByteRule := by
  unfold Obligations.LoadByteRule
  rintro s rd rs1 imm _ rfl
  refine ⟨decode_lb imm rs1 rd, decode_lbu imm rs1 rd, fun hb => ?_, fun hb => ?_⟩
  · rw [← Memory.readLE_one]
    exact ⟨_, _, sext_toInt _ (by decide), zext_toNat _ (by decide),
      writes_of_loadInto rfl (Nat.mod_one _) hb, writes_of_loadInto rfl (Nat.mod_one _) hb⟩
  · have hb' := Nat.lt_succ_of_le hb
    exact ⟨loadInto_outOfBounds rfl (Nat.mod_one _) hb', loadInto_outOfBounds rfl (Nat.mod_one _) hb'⟩

/-- Settles O36: LH and LHU read the same two bytes; `sext_toInt` and `zext_toNat` say which number each makes of
them. -/
theorem loadHalfRule : Obligations.LoadHalfRule := by
  unfold Obligations.LoadHalfRule
  rintro s rd rs1 imm _ rfl
  refine ⟨decode_lh imm rs1 rd, decode_lhu imm rs1 rd, fun ha hb => ?_, fun ha => ?_, fun ha hb => ?_⟩
  · rw [← Memory.readLE_two]
    exact ⟨_, _, sext_toInt _ (by decide), zext_toNat _ (by decide),
      writes_of_loadInto rfl ha hb, writes_of_loadInto rfl ha hb⟩
  · exact ⟨loadInto_misaligned rfl ha, loadInto_misaligned rfl ha⟩
  · exact ⟨loadInto_outOfBounds rfl ha hb, loadInto_outOfBounds rfl ha hb⟩

/-- Settles O37: the four bytes are `Memory.readLE_four`, and `zext_word` writes them as they are. -/
theorem loadWordRule : Obligations.LoadWordRule := by
  unfold Obligations.LoadWordRule
  rintro s rd rs1 imm _ rfl
  refine ⟨decode_lw imm rs1 rd, fun ha hb => ?_, loadInto_misaligned rfl, loadInto_outOfBounds rfl⟩
  rw [← Memory.readLE_four, ← zext_word (Memory.readLE s.mem _ 4)]
  exact writes_of_loadInto rfl ha hb

/-- Settles O38: as for LB, only the bounds can fail; `encS_pieces` joins the two fields of the immediate. -/
theorem storeByteRule : Obligations.StoreByteRule := by
  unfold Obligations.StoreByteRule
  intro s rs1 rs2 hi lo imm ea
  rw [← encS_pieces]
  refine ⟨decode_sb (hi ++ lo) rs2 rs1, ?_⟩
  rintro rfl
  exact ⟨fun hb => stores_of_storeAt rfl (Nat.mod_one _) hb
      fun _ hj => BitVec.extractLsb'_extractLsb'_of_le (by omega),
    fun hb => storeAt_outOfBounds rfl (Nat.mod_one _) (Nat.lt_succ_of_le hb)⟩

/-- Settles O39: a byte of the low half of x[rs2] is that byte of x[rs2] itself; the two traps are those
of `storeAt`. -/
theorem storeHalfRule : Obligations.StoreHalfRule := by
  unfold Obligations.StoreHalfRule
  intro s rs1 rs2 hi lo imm ea
  rw [← encS_pieces]
  refine ⟨decode_sh (hi ++ lo) rs2 rs1, ?_⟩
  rintro rfl
  exact ⟨fun ha hb => stores_of_storeAt rfl ha hb fun _ hj => BitVec.extractLsb'_extractLsb'_of_le (by omega),
    storeAt_misaligned rfl, storeAt_outOfBounds rfl⟩

/-- Settles O40: all four bytes of x[rs2] are stored, so no truncation stands between them and memory. -/
theorem storeWordRule : Obligations.StoreWordRule := by
  unfold Obligations.StoreWordRule
  intro s rs1 rs2 hi lo imm ea
  rw [← encS_pieces]
  refine ⟨decode_sw (hi ++ lo) rs2 rs1, ?_⟩
  rintro rfl
  exact ⟨fun ha hb => stores_of_storeAt rfl ha hb fun _ _ => rfl, storeAt_misaligned rfl, storeAt_outOfBounds rfl⟩

end Sys2Proof.Machine
end

section
/-! Proofs: the host's get_logs() (R250). -/

namespace Sys2Proof.Machine

/-- What a step does when the host's next call is `get_logs()`: the whole log is the reply, and no log is left. -/
theorem step_getLogs {s : State} {cs : List HostCall} (h : s.status ≠ .running) (hc : s.calls = .getLogs :: cs) :
    step s = .next { s with log := [], calls := cs, replies := s.replies ++ [.logs s.log] } :=
  step_host_call h hc

/-- Settles O52: `step_getLogs` twice; the first call leaves the second one a state that is not running either, whose
log is empty. -/
theorem getLogsDrains : Obligations.GetLogsDrains := by
  unfold Obligations.GetLogsDrains
  intro s cs h hc
  refine ⟨_, step_getLogs h hc, rfl, ?_⟩
  rw [step_getLogs (cs := cs), List.append_assoc, List.singleton_append]
  · exact h
  · rfl

end Sys2Proof.Machine
end

section
/-! Proofs: the decoder, the encoder and the opcode map (30_encoding.md A4 to A7). Decoding an encoded instruction and
encoding a decoded word are both the identity (R87); with them, the rows of R82 need only be compared with the decoder's
own case distinction once. -/

namespace Sys2Proof

/-! ## Decoding MISC-MEM and SYSTEM (R78, R79) -/

theorem decode_fence (fm pred succ : BitVec 4) (rs1 rd : Reg) :
    decode (encI (fm ++ pred ++ succ) rs1 0b000#3 rd 0b0001111#7) = .ok (.fence fm pred succ rs1 rd) := by
  simp [decode, decodeMiscMem]

theorem decode_ecall : decode 0x00000073#32 = .ok .ecall := by decide

theorem decode_ebreak : decode 0x00100073#32 = .ok .ebreak := by decide

/-! ## Decoding what was encoded (R87) -/

/-- Decoding the encoding of a well-formed instruction gives it back. Well-formedness counts for the jump and the six
branches alone, whose formats do not hold bit 0 of the displacement. -/
theorem decode_encode {i : Instr} (h : i.wellFormed = true) : decode (encode i) = .ok i := by
  cases i with
  | lui rd imm => exact decode_lui imm rd
  | auipc rd imm => exact decode_auipc imm rd
  | jal rd off => exact decode_jal (evenOffset_bit h) rd
  | jalr rd rs1 imm => exact decode_jalr imm rs1 rd
  | beq rs1 rs2 off => exact decode_beq (evenOffset_bit h) rs2 rs1
  | bne rs1 rs2 off => exact decode_bne (evenOffset_bit h) rs2 rs1
  | blt rs1 rs2 off => exact decode_blt (evenOffset_bit h) rs2 rs1
  | bge rs1 rs2 off => exact decode_bge (evenOffset_bit h) rs2 rs1
  | bltu rs1 rs2 off => exact decode_bltu (evenOffset_bit h) rs2 rs1
  | bgeu rs1 rs2 off => exact decode_bgeu (evenOffset_bit h) rs2 rs1
  | lb rd rs1 imm => exact decode_lb imm rs1 rd
  | lh rd rs1 imm => exact decode_lh imm rs1 rd
  | lw rd rs1 imm => exact decode_lw imm rs1 rd
  | lbu rd rs1 imm => exact decode_lbu imm rs1 rd
  | lhu rd rs1 imm => exact decode_lhu imm rs1 rd
  | sb rs2 rs1 imm => exact decode_sb imm rs2 rs1
  | sh rs2 rs1 imm => exact decode_sh imm rs2 rs1
  | sw rs2 rs1 imm => exact decode_sw imm rs2 rs1
  | addi rd rs1 imm => exact decode_addi imm rs1 rd
  | slti rd rs1 imm => exact decode_slti imm rs1 rd
  | sltiu rd rs1 imm => exact decode_sltiu imm rs1 rd
  | xori rd rs1 imm => exact decode_xori imm rs1 rd
  | ori rd rs1 imm => exact decode_ori imm rs1 rd
  | andi rd rs1 imm => exact decode_andi imm rs1 rd
  | slli rd rs1 shamt => exact decode_slli shamt rs1 rd
  | srli rd rs1 shamt => exact decode_srli shamt rs1 rd
  | srai rd rs1 shamt => exact decode_srai shamt rs1 rd
  | add rd rs1 rs2 => exact decode_add rs2 rs1 rd
  | sub rd rs1 rs2 => exact decode_sub rs2 rs1 rd
  | sll rd rs1 rs2 => exact decode_sll rs2 rs1 rd
  | slt rd rs1 rs2 => exact decode_slt rs2 rs1 rd
  | sltu rd rs1 rs2 => exact decode_sltu rs2 rs1 rd
  | xor rd rs1 rs2 => exact decode_xor rs2 rs1 rd
  | srl rd rs1 rs2 => exact decode_srl rs2 rs1 rd
  | sra rd rs1 rs2 => exact decode_sra rs2 rs1 rd
  | or rd rs1 rs2 => exact decode_or rs2 rs1 rd
  | and rd rs1 rs2 => exact decode_and rs2 rs1 rd
  | fence fm pred succ rs1 rd => exact decode_fence fm pred succ rs1 rd
  | ecall => exact decode_ecall
  | ebreak => exact decode_ebreak

/-! ## Encoding what was decoded (R81, R87) -/

/-- `w` is the encoding of the well-formed instruction `i`. -/
def IsEncodingOf (w : Word) (i : Instr) : Prop := i.wellFormed = true ∧ encode i = w

theorem decodeJalr_isEncodingOf {w : Word} {i : Instr} (ho : opcodeOf w = 0b1100111#7) (h : decodeJalr w = .ok i) :
    IsEncodingOf w i := by
  unfold decodeJalr at h
  split at h <;> cases h
  exact ⟨rfl, encI_of_fields ho ‹_›⟩

theorem decodeBranch_isEncodingOf {w : Word} {i : Instr} (ho : opcodeOf w = 0b1100011#7)
    (h : decodeBranch w = .ok i) : IsEncodingOf w i := by
  unfold decodeBranch at h
  split at h <;> cases h <;> exact ⟨evenOffset_immBOf w, encB_of_fields ho ‹_›⟩

theorem decodeLoad_isEncodingOf {w : Word} {i : Instr} (ho : opcodeOf w = 0b0000011#7) (h : decodeLoad w = .ok i) :
    IsEncodingOf w i := by
  unfold decodeLoad at h
  split at h <;> cases h <;> exact ⟨rfl, encI_of_fields ho ‹_›⟩

theorem decodeStore_isEncodingOf {w : Word} {i : Instr} (ho : opcodeOf w = 0b0100011#7) (h : decodeStore w = .ok i) :
    IsEncodingOf w i := by
  unfold decodeStore at h
  split at h <;> cases h <;> exact ⟨rfl, encS_of_fields ho ‹_›⟩

theorem decodeShiftLeft_isEncodingOf {w : Word} {i : Instr} (ho : opcodeOf w = 0b0010011#7)
    (h3 : funct3Of w = 0b001#3) (h : decodeShiftLeft w = .ok i) : IsEncodingOf w i := by
  unfold decodeShiftLeft at h
  split at h <;> cases h
  exact ⟨rfl, encShift_of_fields ho h3 ‹_›⟩

theorem decodeShiftRight_isEncodingOf {w : Word} {i : Instr} (ho : opcodeOf w = 0b0010011#7)
    (h3 : funct3Of w = 0b101#3) (h : decodeShiftRight w = .ok i) : IsEncodingOf w i := by
  unfold decodeShiftRight at h
  split at h <;> cases h <;> exact ⟨rfl, encShift_of_fields ho h3 ‹_›⟩

theorem decodeOpImm_isEncodingOf {w : Word} {i : Instr} (ho : opcodeOf w = 0b0010011#7) (h : decodeOpImm w = .ok i) :
    IsEncodingOf w i := by
  unfold decodeOpImm at h
  split at h
  · cases h; exact ⟨rfl, encI_of_fields ho ‹_›⟩
  · exact decodeShiftLeft_isEncodingOf ho ‹_› h
  · cases h; exact ⟨rfl, encI_of_fields ho ‹_›⟩
  · cases h; exact ⟨rfl, encI_of_fields ho ‹_›⟩
  · cases h; exact ⟨rfl, encI_of_fields ho ‹_›⟩
  · exact decodeShiftRight_isEncodingOf ho ‹_› h
  · cases h; exact ⟨rfl, encI_of_fields ho ‹_›⟩
  · cases h; exact ⟨rfl, encI_of_fields ho ‹_›⟩

theorem decodeOp_isEncodingOf {w : Word} {i : Instr} (ho : opcodeOf w = 0b0110011#7) (h : decodeOp w = .ok i) :
    IsEncodingOf w i := by
  unfold decodeOp at h
  split at h <;> cases h <;> exact ⟨rfl, encR_of_fields ho ‹_› ‹_›⟩

theorem decodeMiscMem_isEncodingOf {w : Word} {i : Instr} (ho : opcodeOf w = 0b0001111#7)
    (h : decodeMiscMem w = .ok i) : IsEncodingOf w i := by
  unfold decodeMiscMem at h
  split at h <;> cases h
  exact ⟨rfl, encFence_of_fields ho ‹_›⟩

theorem decodeSystem_isEncodingOf {w : Word} {i : Instr} (h : decodeSystem w = .ok i) : IsEncodingOf w i := by
  unfold decodeSystem at h
  split at h
  · cases h; exact ⟨rfl, Eq.symm ‹_›⟩
  · split at h <;> cases h
    exact ⟨rfl, Eq.symm ‹_›⟩

/-- A legal word is the encoding of the instruction it decodes to: the fields that select the instruction are fixed by
its encoding, the others are its operands. -/
theorem decode_isEncodingOf {w : Word} {i : Instr} (h : decode w = .ok i) : IsEncodingOf w i := by
  unfold decode at h
  split at h
  · cases h; exact ⟨rfl, encU_of_fields ‹_›⟩
  · cases h; exact ⟨rfl, encU_of_fields ‹_›⟩
  · cases h; exact ⟨evenOffset_immJOf w, encJ_of_fields ‹_›⟩
  · exact decodeJalr_isEncodingOf ‹_› h
  · exact decodeBranch_isEncodingOf ‹_› h
  · exact decodeLoad_isEncodingOf ‹_› h
  · exact decodeStore_isEncodingOf ‹_› h
  · exact decodeOpImm_isEncodingOf ‹_› h
  · exact decodeOp_isEncodingOf ‹_› h
  · exact decodeMiscMem_isEncodingOf ‹_› h
  · exact decodeSystem_isEncodingOf h
  · cases h

/-! ## The opcode map (R82) -/

/-- Every instruction has a row with its mnemonic, which its encoding matches. -/
theorem exists_row_of_encode (i : Instr) : ∃ row ∈ opcodeRows, row.mnemonic = i.mnemonic ∧ row.Matches (encode i) := by
  cases i with
  | lui rd imm => exact Laws.FixedBits.lui rd imm
  | auipc rd imm => exact Laws.FixedBits.auipc rd imm
  | jal rd off => exact Laws.FixedBits.jal rd off
  | jalr rd rs1 imm => exact Laws.FixedBits.jalr rd rs1 imm
  | beq rs1 rs2 off => exact Laws.FixedBits.beq rs1 rs2 off
  | bne rs1 rs2 off => exact Laws.FixedBits.bne rs1 rs2 off
  | blt rs1 rs2 off => exact Laws.FixedBits.blt rs1 rs2 off
  | bge rs1 rs2 off => exact Laws.FixedBits.bge rs1 rs2 off
  | bltu rs1 rs2 off => exact Laws.FixedBits.bltu rs1 rs2 off
  | bgeu rs1 rs2 off => exact Laws.FixedBits.bgeu rs1 rs2 off
  | lb rd rs1 imm => exact Laws.FixedBits.lb rd rs1 imm
  | lh rd rs1 imm => exact Laws.FixedBits.lh rd rs1 imm
  | lw rd rs1 imm => exact Laws.FixedBits.lw rd rs1 imm
  | lbu rd rs1 imm => exact Laws.FixedBits.lbu rd rs1 imm
  | lhu rd rs1 imm => exact Laws.FixedBits.lhu rd rs1 imm
  | sb rs2 rs1 imm => exact Laws.FixedBits.sb rs2 rs1 imm
  | sh rs2 rs1 imm => exact Laws.FixedBits.sh rs2 rs1 imm
  | sw rs2 rs1 imm => exact Laws.FixedBits.sw rs2 rs1 imm
  | addi rd rs1 imm => exact Laws.FixedBits.addi rd rs1 imm
  | slti rd rs1 imm => exact Laws.FixedBits.slti rd rs1 imm
  | sltiu rd rs1 imm => exact Laws.FixedBits.sltiu rd rs1 imm
  | xori rd rs1 imm => exact Laws.FixedBits.xori rd rs1 imm
  | ori rd rs1 imm => exact Laws.FixedBits.ori rd rs1 imm
  | andi rd rs1 imm => exact Laws.FixedBits.andi rd rs1 imm
  | slli rd rs1 shamt => exact Laws.FixedBits.slli rd rs1 shamt
  | srli rd rs1 shamt => exact Laws.FixedBits.srli rd rs1 shamt
  | srai rd rs1 shamt => exact Laws.FixedBits.srai rd rs1 shamt
  | add rd rs1 rs2 => exact Laws.FixedBits.add rd rs1 rs2
  | sub rd rs1 rs2 => exact Laws.FixedBits.sub rd rs1 rs2
  | sll rd rs1 rs2 => exact Laws.FixedBits.sll rd rs1 rs2
  | slt rd rs1 rs2 => exact Laws.FixedBits.slt rd rs1 rs2
  | sltu rd rs1 rs2 => exact Laws.FixedBits.sltu rd rs1 rs2
  | xor rd rs1 rs2 => exact Laws.FixedBits.xor rd rs1 rs2
  | srl rd rs1 rs2 => exact Laws.FixedBits.srl rd rs1 rs2
  | sra rd rs1 rs2 => exact Laws.FixedBits.sra rd rs1 rs2
  | or rd rs1 rs2 => exact Laws.FixedBits.or rd rs1 rs2
  | and rd rs1 rs2 => exact Laws.FixedBits.and rd rs1 rs2
  | fence fm pred succ rs1 rd => exact Laws.FixedBits.fence fm pred succ rs1 rd
  | ecall => exact Laws.FixedBits.ecall
  | ebreak => exact Laws.FixedBits.ebreak

/-- No mnemonic has two rows. -/
theorem row_eq_of_mnemonic {row row' : OpcodeRow} (h : row ∈ opcodeRows) (h' : row' ∈ opcodeRows)
    (hm : row.mnemonic = row'.mnemonic) : row = row' :=
  List.inj_on_of_nodup_map (f := OpcodeRow.mnemonic) (by decide) h h' hm

/-- The word decodes to an instruction of the row's mnemonic. -/
def OpcodeRow.Decodes (row : OpcodeRow) (w : Word) : Prop := ∃ i, decode w = .ok i ∧ i.mnemonic = row.mnemonic

/-- The row's mask is `m`, and its match has no bit outside it. -/
abbrev OpcodeRow.HasMask (row : OpcodeRow) (m : Word) : Prop := row.mask = m ∧ row.pattern &&& m = row.pattern

/-- A word matches a row exactly when the two agree on the bits of the row's mask. -/
theorem matches_iff_masked_eq {row : OpcodeRow} {m w : Word} (hm : row.HasMask m) :
    row.Matches w ↔ w &&& m = row.pattern &&& m := by
  obtain ⟨hmask, hp⟩ := hm
  rw [OpcodeRow.Matches, hmask, hp]

theorem opcode_of_matches {row : OpcodeRow} {w : Word} (hm : row.HasMask 0x7F#32) (h : row.Matches w) :
    opcodeOf w = opcodeOf row.pattern :=
  (opcode_mask w row.pattern).mp ((matches_iff_masked_eq hm).mp h)

theorem funct3_of_matches {row : OpcodeRow} {w : Word} (hm : row.HasMask 0x707F#32) (h : row.Matches w) :
    opcodeOf w = opcodeOf row.pattern ∧ funct3Of w = funct3Of row.pattern :=
  (opcode_funct3_mask w row.pattern).mp ((matches_iff_masked_eq hm).mp h)

theorem funct7_of_matches {row : OpcodeRow} {w : Word} (hm : row.HasMask 0xFE00707F#32) (h : row.Matches w) :
    opcodeOf w = opcodeOf row.pattern ∧ funct3Of w = funct3Of row.pattern ∧ funct7Of w = funct7Of row.pattern :=
  (opcode_funct3_funct7_mask w row.pattern).mp ((matches_iff_masked_eq hm).mp h)

/-! In each group of rows the fields under the mask are those the decoder looks at, so they select the same
instruction there. -/

theorem decodes_of_matches_upper {row : OpcodeRow} {w : Word} (hr : row ∈ rowsUpper) (h : row.Matches w) :
    row.Decodes w := by
  have hm : ∀ r ∈ rowsUpper, r.HasMask 0x7F#32 := by decide
  have ho := opcode_of_matches (hm row hr) h
  simp only [rowsUpper, List.mem_cons, List.not_mem_nil, or_false] at hr
  rcases hr with rfl | rfl | rfl <;> simp_all [OpcodeRow.Decodes, decode, opcodeOf, Instr.mnemonic]

theorem decodes_of_matches_transfer {row : OpcodeRow} {w : Word} (hr : row ∈ rowsTransfer) (h : row.Matches w) :
    row.Decodes w := by
  have hm : ∀ r ∈ rowsTransfer, r.HasMask 0x707F#32 := by decide
  obtain ⟨ho, h3⟩ := funct3_of_matches (hm row hr) h
  simp only [rowsTransfer, List.mem_cons, List.not_mem_nil, or_false] at hr
  rcases hr with rfl | rfl | rfl | rfl | rfl | rfl | rfl <;>
    simp_all [OpcodeRow.Decodes, decode, decodeJalr, decodeBranch, opcodeOf, funct3Of, Instr.mnemonic]

theorem decodes_of_matches_memory {row : OpcodeRow} {w : Word} (hr : row ∈ rowsMemory) (h : row.Matches w) :
    row.Decodes w := by
  have hm : ∀ r ∈ rowsMemory, r.HasMask 0x707F#32 := by decide
  obtain ⟨ho, h3⟩ := funct3_of_matches (hm row hr) h
  simp only [rowsMemory, List.mem_cons, List.not_mem_nil, or_false] at hr
  rcases hr with rfl | rfl | rfl | rfl | rfl | rfl | rfl | rfl <;>
    simp_all [OpcodeRow.Decodes, decode, decodeLoad, decodeStore, opcodeOf, funct3Of, Instr.mnemonic]

/-- The six rows of OP-IMM that hold a whole immediate. -/
theorem decodes_of_matches_opImm {row : OpcodeRow} {w : Word} (hr : row ∈ rowsOpImm.take 6) (h : row.Matches w) :
    row.Decodes w := by
  have hm : ∀ r ∈ rowsOpImm.take 6, r.HasMask 0x707F#32 := by decide
  obtain ⟨ho, h3⟩ := funct3_of_matches (hm row hr) h
  simp only [rowsOpImm, List.take_succ_cons, List.take_zero, List.mem_cons, List.not_mem_nil, or_false] at hr
  rcases hr with rfl | rfl | rfl | rfl | rfl | rfl <;>
    simp_all [OpcodeRow.Decodes, decode, decodeOpImm, opcodeOf, funct3Of, Instr.mnemonic]

/-- The three shifts of OP-IMM, which also fix inst[31:25]. -/
theorem decodes_of_matches_shift {row : OpcodeRow} {w : Word} (hr : row ∈ rowsOpImm.drop 6) (h : row.Matches w) :
    row.Decodes w := by
  have hm : ∀ r ∈ rowsOpImm.drop 6, r.HasMask 0xFE00707F#32 := by decide
  obtain ⟨ho, h3, h7⟩ := funct7_of_matches (hm row hr) h
  simp only [rowsOpImm, List.drop_succ_cons, List.drop_zero, List.mem_cons, List.not_mem_nil, or_false] at hr
  rcases hr with rfl | rfl | rfl <;>
    simp_all [OpcodeRow.Decodes, decode, decodeOpImm, decodeShiftLeft, decodeShiftRight, opcodeOf, funct3Of, funct7Of,
      Instr.mnemonic]

theorem decodes_of_matches_op {row : OpcodeRow} {w : Word} (hr : row ∈ rowsOp) (h : row.Matches w) :
    row.Decodes w := by
  have hm : ∀ r ∈ rowsOp, r.HasMask 0xFE00707F#32 := by decide
  obtain ⟨ho, h3, h7⟩ := funct7_of_matches (hm row hr) h
  simp only [rowsOp, List.mem_cons, List.not_mem_nil, or_false] at hr
  rcases hr with rfl | rfl | rfl | rfl | rfl | rfl | rfl | rfl | rfl | rfl <;>
    simp_all [OpcodeRow.Decodes, decode, decodeOp, opcodeOf, funct3Of, funct7Of, Instr.mnemonic]

/-- ECALL and EBREAK are single words, FENCE is selected like a load. -/
theorem decodes_of_matches_system {row : OpcodeRow} {w : Word} (hr : row ∈ rowsSystem) (h : row.Matches w) :
    row.Decodes w := by
  simp only [rowsSystem, List.mem_cons, List.not_mem_nil, or_false] at hr
  rcases hr with rfl | rfl | rfl
  · obtain ⟨ho, h3⟩ := funct3_of_matches ⟨rfl, rfl⟩ h
    simp_all [OpcodeRow.Decodes, decode, decodeMiscMem, opcodeOf, funct3Of, Instr.mnemonic]
  · obtain rfl : w = 0x00000073#32 := (BitVec.and_allOnes (x := w)).symm.trans h
    exact ⟨.ecall, decode_ecall, rfl⟩
  · obtain rfl : w = 0x00100073#32 := (BitVec.and_allOnes (x := w)).symm.trans h
    exact ⟨.ebreak, decode_ebreak, rfl⟩

theorem decodes_of_matches {row : OpcodeRow} {w : Word} (hr : row ∈ opcodeRows) (h : row.Matches w) :
    row.Decodes w := by
  rw [opcodeRows, ← List.take_append_drop 6 rowsOpImm] at hr
  simp only [List.mem_append] at hr
  obtain ((((hr | hr) | hr) | hr | hr) | hr) | hr := hr
  · exact decodes_of_matches_upper hr h
  · exact decodes_of_matches_transfer hr h
  · exact decodes_of_matches_memory hr h
  · exact decodes_of_matches_opImm hr h
  · exact decodes_of_matches_shift hr h
  · exact decodes_of_matches_op hr h
  · exact decodes_of_matches_system hr h

/-- A word that decodes matches the row of the instruction's mnemonic: the word is that instruction's encoding. -/
theorem exists_row_of_decode {w : Word} {i : Instr} (h : decode w = .ok i) :
    ∃ row ∈ opcodeRows, row.mnemonic = i.mnemonic ∧ row.Matches w := by
  obtain ⟨-, rfl⟩ := decode_isEncodingOf h
  exact exists_row_of_encode i

/-- The scan of the opcode map and the decoder give the same mnemonic. -/
theorem matches_iff_decodes {row : OpcodeRow} (hr : row ∈ opcodeRows) (w : Word) : row.Matches w ↔ row.Decodes w := by
  refine ⟨decodes_of_matches hr, ?_⟩
  rintro ⟨i, hd, hm⟩
  obtain ⟨row', hr', hm', hw⟩ := exists_row_of_decode hd
  rwa [row_eq_of_mnemonic hr hr' (hm.symm.trans hm'.symm)]

/-- A word is rejected by the decoder exactly when it matches no row. -/
theorem decode_error_iff (w : Word) : (∃ e, decode w = .error e) ↔ ∀ row ∈ opcodeRows, ¬row.Matches w := by
  constructor
  · rintro ⟨e, he⟩ row hr h
    obtain ⟨i, hi, -⟩ := decodes_of_matches hr h
    rw [he] at hi
    cases hi
  · intro h
    cases hd : decode w with
    | error e => exact ⟨e, rfl⟩
    | ok i =>
      obtain ⟨row, hr, -, hw⟩ := exists_row_of_decode hd
      exact absurd hw (h row hr)

/-! ## The obligations -/

/-- Settles O1: `decode_encode`. -/
theorem decodeEncodeRoundTrip : Obligations.DecodeEncodeRoundTrip := by
  unfold Obligations.DecodeEncodeRoundTrip
  intro i h
  exact decode_encode h

/-- Settles O2: `decode_isEncodingOf`. -/
theorem encodeDecodeRoundTrip : Obligations.EncodeDecodeRoundTrip := by
  unfold Obligations.EncodeDecodeRoundTrip
  intro w i h
  exact decode_isEncodingOf h

/-- Settles O3: `matches_iff_decodes`; two rows that match one word have the mnemonic it decodes to, and no mnemonic has
two rows. -/
theorem decodeAgreesWithOpcodeTable : Obligations.DecodeAgreesWithOpcodeTable := by
  unfold Obligations.DecodeAgreesWithOpcodeTable
  refine ⟨fun w row hr => matches_iff_decodes hr w, fun w row row' hr hr' h h' => ?_⟩
  obtain ⟨i, hi, hm⟩ := decodes_of_matches hr h
  obtain ⟨j, hj, hm'⟩ := decodes_of_matches hr' h'
  obtain rfl : i = j := Except.ok.inj (hi.symm.trans hj)
  exact row_eq_of_mnemonic hr hr' (hm.symm.trans hm')

/-- Settles O4: `decode_error_iff`. -/
theorem illegalIsTheComplement : Obligations.IllegalIsTheComplement := by
  unfold Obligations.IllegalIsTheComplement
  exact decode_error_iff

/-- Settles O5: the decoder is run on each printed word. -/
theorem printedWordsDecode : Obligations.PrintedWordsDecode := by
  unfold Obligations.PrintedWordsDecode
  decide

end Sys2Proof
end

section
/-! Proofs: memory (20_memory.md): reads of another width than the write (R50), the canonical form, and fetch (R48,
R56). -/

namespace Sys2Proof.Machine

/-! ## Reads inside a written word (R50) -/

/-- The four bytes of memory after a word was written, the low byte at the low address. -/
theorem Memory.byte_writeLE_word (m : Memory) (a : Nat) (b3 b2 b1 b0 : Byte) :
    let m' := Memory.writeLE m a 4 (b3 ++ b2 ++ b1 ++ b0)
    Memory.byte m' a = b0 ∧ Memory.byte m' (a + 1) = b1 ∧ Memory.byte m' (a + 2) = b2 ∧
      Memory.byte m' (a + 3) = b3 := by
  have inside := fun i h => Memory.writeLE_inside m a 4 (b3 ++ b2 ++ b1 ++ b0) (i := i) h
  refine ⟨(inside 0 (by decide)).trans ?_, (inside 1 (by decide)).trans ?_, (inside 2 (by decide)).trans ?_,
    (inside 3 (by decide)).trans ?_⟩
  · exact BitVec.extractLsb'_append_eq_right
  · rw [BitVec.extractLsb'_append_eq_of_le (by decide)]
    exact BitVec.extractLsb'_append_eq_right
  · rw [BitVec.extractLsb'_append_eq_of_le (by decide), BitVec.extractLsb'_append_eq_of_le (by decide)]
    exact BitVec.extractLsb'_append_eq_right
  · rw [BitVec.extractLsb'_append_eq_of_le (by decide), BitVec.extractLsb'_append_eq_of_le (by decide)]
    exact BitVec.extractLsb'_append_eq_left

/-- The addresses inside an aligned word do not wrap around. -/
theorem word_offset_toNat {addr : Word} (ha : addr.toNat % 4 = 0) {j : Nat} (hj : j < 4) :
    (addr + BitVec.ofNat 32 j).toNat = addr.toNat + j := by
  have := addr.isLt
  rw [BitVec.toNat_add, BitVec.toNat_ofNat]
  omega

section
variable {s : State} {addr b : Word} {j : Nat} (ha : addr.toNat % 4 = 0) (hb : addr.toNat + 4 ≤ s.config.memSize)
  (he : b.toNat = addr.toNat + j)
include ha hb he

/-- A byte read inside a word that lies in memory. -/
theorem memRead_byte_inside_word (hj : j < 4) : memRead s b 1 = .ok (Memory.byte s.mem (addr.toNat + j)) :=
  memRead_ok_iff.mpr ⟨Nat.mod_one _, by omega, by rw [he, Memory.readLE_one]⟩

/-- A halfword read inside a word that lies in memory. -/
theorem memRead_half_inside_word (hj : j = 0 ∨ j = 2) :
    memRead s b 2 = .ok (Memory.byte s.mem (addr.toNat + j + 1) ++ Memory.byte s.mem (addr.toNat + j)) :=
  memRead_ok_iff.mpr ⟨by omega, by omega, by rw [he, Memory.readLE_two]⟩

end

/-! ## The canonical form -/

/-- Below its first cell a canonical memory reads 0. -/
theorem Memory.byte_before_head {c : Host.Cell} {m : Memory} (h : Memory.Wf (c :: m)) {a : Nat} (ha : a < c.1) :
    Memory.byte (c :: m) a = 0#8 := by
  refine Memory.byte_unlisted fun d hd => ?_
  rcases List.mem_cons.mp hd with rfl | hd
  · omega
  · have := (List.pairwise_cons.mp h.1).1 d hd
    omega

theorem Memory.byte_head_ne_zero {c : Host.Cell} {m : Memory} (h : Memory.Wf (c :: m)) :
    Memory.byte (c :: m) c.1 ≠ 0#8 := by
  rw [Memory.byte_cons, if_pos rfl]
  exact h.2 c List.mem_cons_self

theorem Memory.wf_tail {c : Host.Cell} {m : Memory} (h : Memory.Wf (c :: m)) : Memory.Wf m :=
  ⟨h.1.of_cons, fun d hd => h.2 d (List.mem_cons_of_mem c hd)⟩

/-- The tail of a canonical memory reads 0 at the head's address, and as the whole memory anywhere else. -/
theorem Memory.byte_tail {c : Host.Cell} {m : Memory} (h : Memory.Wf (c :: m)) (a : Nat) :
    Memory.byte m a = if a = c.1 then 0#8 else Memory.byte (c :: m) a := by
  split
  · subst a
    refine Memory.byte_unlisted fun d hd => ?_
    have := (List.pairwise_cons.mp h.1).1 d hd
    omega
  · rw [Memory.byte_cons, if_neg (Ne.symm ‹_›)]

/-- The first cell of a canonical memory is where it first reads as something else than 0. -/
theorem Memory.head_address_le {c d : Host.Cell} {m m' : Memory} (h : Memory.Wf (c :: m)) (h' : Memory.Wf (d :: m'))
    (hb : ∀ a, Memory.byte (c :: m) a = Memory.byte (d :: m') a) : c.1 ≤ d.1 := by
  by_contra hlt
  exact Memory.byte_head_ne_zero h' ((hb d.1).symm.trans (Memory.byte_before_head h (by omega)))

theorem Memory.eq_of_byte_eq {m m' : Memory} (h : Memory.Wf m) (h' : Memory.Wf m')
    (hb : ∀ a, Memory.byte m a = Memory.byte m' a) : m = m' := by
  induction m generalizing m' with
  | nil =>
    cases m' with
    | nil => rfl
    | cons d m' => exact absurd (hb d.1).symm (Memory.byte_head_ne_zero h')
  | cons c m ih =>
    cases m' with
    | nil => exact absurd (hb c.1) (Memory.byte_head_ne_zero h)
    | cons d m' =>
      have ha : c.1 = d.1 :=
        Nat.le_antisymm (Memory.head_address_le h h' hb) (Memory.head_address_le h' h fun a => (hb a).symm)
      have hv : c.2 = d.2 := by simpa [ha] using hb d.1
      have ht : m = m' := by
        refine ih (Memory.wf_tail h) (Memory.wf_tail h') fun a => ?_
        rw [Memory.byte_tail h, Memory.byte_tail h', ha, hb a]
      rw [Prod.ext ha hv, ht]

/-! ## Fetch (R48) -/

theorem fetch_outOfBounds {s : State} {addr : Word} (h : addr.toNat ≥ s.imageEnd ∨ addr.toNat % 4 ≠ 0) :
    fetch s addr = .error (.outOfBounds .fetch addr) :=
  if_pos h

/-! ## The obligations -/

/-- Settles O9: each read lies inside the written word, so it succeeds, and its bytes are those of
`Memory.byte_writeLE_word`. -/
theorem mixedWidthReads : Obligations.MixedWidthReads := by
  unfold Obligations.MixedWidthReads
  intro s addr m b3 b2 b1 b0 h
  obtain ⟨ha, hb, rfl⟩ := memWrite_ok_iff.mp h
  obtain ⟨h0, h1, h2, h3⟩ := Memory.byte_writeLE_word s.mem addr.toNat b3 b2 b1 b0
  set m := Memory.writeLE s.mem addr.toNat 4 (b3 ++ b2 ++ b1 ++ b0)
  have byte := fun b j => memRead_byte_inside_word (s := s.setMem m) (b := b) (j := j) ha hb
  have half := fun b j => memRead_half_inside_word (s := s.setMem m) (b := b) (j := j) ha hb
  have e1 := word_offset_toNat ha (j := 1) (by decide)
  have e2 := word_offset_toNat ha (j := 2) (by decide)
  have e3 := word_offset_toNat ha (j := 3) (by decide)
  refine ⟨h0 ▸ byte addr 0 rfl (by decide), h1 ▸ byte _ 1 e1 (by decide), h2 ▸ byte _ 2 e2 (by decide),
    h3 ▸ byte _ 3 e3 (by decide), ?_, ?_, ?_⟩
  · rw [← h1, ← h0]
    exact half addr 0 rfl (.inl rfl)
  · rw [← h3, ← h2]
    exact half _ 2 e2 (.inr rfl)
  · exact memRead_ok_iff.mpr ⟨ha, hb, (Memory.readLE_writeLE s.mem addr.toNat 4 (b3 ++ b2 ++ b1 ++ b0)).symm⟩

/-- Settles O10: `Memory.eq_of_byte_eq`. -/
theorem canonicalMemoryIsDetermined : Obligations.CanonicalMemoryIsDetermined := by
  unfold Obligations.CanonicalMemoryIsDetermined
  intro m m'
  exact Memory.eq_of_byte_eq

/-- Settles O11: the bytes of a fetched word are `Memory.readLE_four`. -/
theorem fetchRule : Obligations.FetchRule := by
  unfold Obligations.FetchRule
  intro s addr
  exact ⟨fetch_outOfBounds, fun hb ha => fetch_ok_iff.mpr ⟨hb, ha, (Memory.readLE_four s.mem addr.toNat).symm⟩⟩

/-- Settles O12: the store succeeded, so the address is aligned; below image_end that is all a fetch asks for. -/
theorem storeIntoTextIsFetched : Obligations.StoreIntoTextIsFetched := by
  unfold Obligations.StoreIntoTextIsFetched
  intro s addr v m h hi
  obtain ⟨ha, -, rfl⟩ := memWrite_ok_iff.mp h
  exact fetch_ok_iff.mpr ⟨hi, ha, (Memory.readLE_writeLE s.mem addr.toNat 4 v).symm⟩

end Sys2Proof.Machine
end

section
/-! Proofs: what every instruction does and leaves unchanged (70_reset_and_hazards.md section 2, 10_state.md sections 3
and 4), by the five ways an instruction ends (`exec_inv`); FENCE, ECALL and EBREAK (44_memory_ordering.md,
45_environment.md). -/

namespace Sys2Proof.Machine

/-- The ways an instruction ends, as named cases: it writes a register, writes nothing, stores bytes, halts or traps. -/
inductive Ending (i : Instr) (s : State) : State → Prop where
  | wrote (rd : Reg) (v target : Word) : destination i = some rd → NextPc i s target →
      Ending i s ((s.setX rd v).retireTo target)
  | moved (target : Word) : NextPc i s target → Ending i s (s.retireTo target)
  | stored (a n : Nat) (v : BitVec (8 * n)) : storeRange i s = some (a, n) → a + n ≤ s.config.memSize →
      Ending i s (s.setMem (Memory.writeLE s.mem a n v)).retire
  | halted (r : HaltReason) : Ending i s (s.haltWith r)
  | trapped (c : TrapCause) : Ending i s (s.takeTrap c)

theorem ending_of_exec {i : Instr} {s t : State} (h : exec i s = .next t) : Ending i s t := by
  obtain ⟨rd, v, target, hd, -, hn, rfl⟩ | ⟨target, -, hn, rfl⟩ | ⟨a, n, v, hs, hb, rfl⟩ |
    (⟨-, rfl⟩ | ⟨-, rfl⟩) | ⟨c, rfl⟩ := exec_inv h
  · exact .wrote rd v target hd hn
  · exact .moved target hn
  · exact .stored a n v hs hb
  · exact .halted .exit
  · exact .halted .breakpoint
  · exact .trapped c

section
variable {i : Instr} {s t : State}

/-- An instruction retires, halts or traps. -/
theorem Ending.outcome (h : Ending i s t) :
    (∃ target, RetiredTo target s t) ∨ (∃ r, HaltedFor r s t) ∨ ∃ c, Trapped c s t := by
  cases h with
  | wrote rd v target => exact .inl ⟨target, retiredTo_setX rd v target s⟩
  | moved target => exact .inl ⟨target, retiredTo_retireTo target s⟩
  | stored a n v => exact .inl ⟨_, rfl, rfl, rfl, rfl, rfl, rfl, rfl, rfl⟩
  | halted r => exact .inr (.inl ⟨r, haltedFor_haltWith r s⟩)
  | trapped c => exact .inr (.inr ⟨c, trapped_takeTrap c s⟩)

/-- Whatever way an instruction ends, IMAGE, the parameters and the host's side are as before. -/
theorem Ending.sameOutside (h : Ending i s t) : SameOutside s t := by
  obtain ⟨_, -, -, -, -, ho⟩ | ⟨_, -, -, -, -, -, -, ho⟩ | ⟨_, -, -, -, -, -, -, ho⟩ := h.outcome <;> exact ho

/-- An instruction that counts no step leaves the pc; one that counts a step goes where `NextPc` says. -/
theorem Ending.pc (h : Ending i s t) :
    (t.steps = s.steps ∧ t.pc = s.pc) ∨ (t.steps = s.steps + 1 ∧ NextPc i s t.pc) := by
  cases h with
  | wrote rd v target hd hn => exact .inr ⟨by simp, hn⟩
  | moved target hn => exact .inr ⟨rfl, hn⟩
  | stored a n v => exact .inr ⟨rfl, .inl rfl⟩
  | halted r => exact .inl ⟨rfl, rfl⟩
  | trapped c => exact .inl ⟨rfl, rfl⟩

theorem Ending.x (h : Ending i s t) {r : Reg} (hr : destination i ≠ some r) : t.x r = s.x r := by
  cases h with
  | wrote rd v target hd =>
    have hne : r ≠ rd := by rintro rfl; exact hr hd
    exact State.setX_x_other s v hne
  | moved target => rfl
  | stored a n v => rfl
  | halted r => rfl
  | trapped c => rfl

/-- Only a store changes memory, and only inside the capacity. -/
theorem Ending.mem (h : Ending i s t) :
    t.mem = s.mem ∨ ∃ a n v, storeRange i s = some (a, n) ∧ a + n ≤ s.config.memSize ∧
      t.mem = Memory.writeLE s.mem a n v := by
  cases h with
  | wrote rd v target => exact .inl (State.setX_mem s rd v)
  | moved target => exact .inl rfl
  | stored a n v hs hb => exact .inr ⟨a, n, v, hs, hb, rfl⟩
  | halted r => exact .inl rfl
  | trapped c => exact .inl rfl

end

/-! ## The obligations -/

/-- Settles O17: `Ending.outcome`. -/
theorem retireHaltOrTrap : Obligations.RetireHaltOrTrap := by
  unfold Obligations.RetireHaltOrTrap
  intro i s
  obtain ⟨t, ht, -⟩ := exec_ends i s
  exact ⟨t, ht, (ending_of_exec ht).outcome⟩

/-- Settles O18: `Ending.pc`; where the pc is not pc + 4, `NextPc` leaves the target of a transfer. -/
theorem whereThePcGoes : Obligations.WhereThePcGoes := by
  unfold Obligations.WhereThePcGoes
  intro i s t h
  obtain ⟨hs, hpc⟩ | ⟨hs, hn⟩ := (ending_of_exec h).pc
  · exact ⟨fun _ => hpc, fun hs' => by omega⟩
  · exact ⟨fun hs' => by omega, fun _ hne => hn.resolve_left hne⟩

/-- Settles O19: a store's bytes are those of `Memory.writeLE`, which leaves every other byte alone. -/
theorem instructionFrame : Obligations.InstructionFrame := by
  unfold Obligations.InstructionFrame
  intro i s t h
  have he := ending_of_exec h
  refine ⟨fun _ => he.x, ?_⟩
  obtain hm | ⟨a, n, v, hs, -, hm⟩ := he.mem
  · exact ⟨fun _ a => by rw [hm], fun _ _ _ b _ => by rw [hm], he.sameOutside⟩
  · refine ⟨fun hn => ?_, fun a' n' hs' b hb => ?_, he.sameOutside⟩
    · rw [hs] at hn
      cases hn
    · obtain ⟨rfl, rfl⟩ : a = a' ∧ n = n' := by simpa [hs] using hs'
      rw [hm, Memory.writeLE_outside _ _ _ _ hb]

/-- Settles O34: `add_sext_toNat`. -/
theorem effectiveAddressWraps : Obligations.EffectiveAddressWraps := by
  unfold Obligations.EffectiveAddressWraps
  intro s rs1 imm
  exact add_sext_toNat (s.x rs1) imm (by decide)

/-- Settles O41: a FENCE word is an I-format word with fm, pred and succ in the immediate's place. -/
theorem fenceRule : Obligations.FenceRule := by
  unfold Obligations.FenceRule
  intro s fm pred succ rs1 rd
  exact ⟨decode_fence fm pred succ rs1 rd, goesTo_of_retireTo rfl⟩

/-- Settles O42: both are `State.haltWith`. -/
theorem voluntaryHaltRule : Obligations.VoluntaryHaltRule := by
  unfold Obligations.VoluntaryHaltRule
  intro s
  exact ⟨⟨_, rfl, haltedFor_haltWith .exit s⟩, ⟨_, rfl, haltedFor_haltWith .breakpoint s⟩⟩

end Sys2Proof.Machine
end

section
/-! Proofs: the hart's step (70_reset_and_hazards.md section 2, R245 to R258): one equation per way a step of a running
machine goes, that every run ends, and that no step reads the log. -/

namespace Sys2Proof.Machine

/-! ## The four ways a step goes while Running (R245, R246) -/

section
variable {s : State} (h : s.status = .running)
include h

theorem step_at_bound (hb : s.config.maxSteps ≤ s.steps) : step s = .next s.haltAtLimit := by
  rw [step, if_pos h, runLoop, if_pos hb]

variable (hb : s.steps < s.config.maxSteps)
include hb

theorem step_below_bound : step s = hartStep s := by
  rw [step, if_pos h, runLoop, if_neg (Nat.not_le.mpr hb)]

theorem step_fetch_trap {c : TrapCause} (hf : fetch s s.pc = .error c) : step s = .next (s.takeTrap c) := by
  rw [step_below_bound h hb, hartStep, hf]

theorem step_decode_trap {w : Word} {e : IllegalEncoding} (hf : fetch s s.pc = .ok w) (hd : decode w = .error e) :
    step s = .next (s.takeTrap (.illegalInstruction w)) := by
  rw [step_below_bound h hb, hartStep, hf]
  simp only [hd]

theorem step_exec {w : Word} {i : Instr} (hf : fetch s s.pc = .ok w) (hd : decode w = .ok i) :
    step s = exec i s := by
  rw [step_below_bound h hb, hartStep, hf]
  simp only [hd]

end

/-- What a step of a running machine leaves: the halt at the bound, a trap, or the ending of an instruction. -/
inductive HartEnds (s : State) : State → Prop where
  | limit : s.config.maxSteps ≤ s.steps → HartEnds s s.haltAtLimit
  | trap (c : TrapCause) : HartEnds s (s.takeTrap c)
  | instr (i : Instr) (t : State) : s.steps < s.config.maxSteps → Ending i s t → HartEnds s t

/-- A running machine always has a next state. -/
theorem exists_hartEnds {s : State} (h : s.status = .running) : ∃ t, step s = .next t ∧ HartEnds s t := by
  obtain ⟨hb, e⟩ | ⟨-, c, e⟩ | ⟨hb, w, i, -, -, e⟩ := step_running s h
  · exact ⟨_, e, .limit hb⟩
  · exact ⟨_, e, .trap c⟩
  · obtain ⟨t, ht, -⟩ := exec_ends i s
    exact ⟨t, e.trans ht, .instr i t hb (ending_of_exec ht)⟩

theorem hartEnds_of_step {s t : State} (h : s.status = .running) (hs : step s = .next t) : HartEnds s t := by
  obtain ⟨u, hu, he⟩ := exists_hartEnds h
  cases hu.symm.trans hs
  exact he

/-! ## Every run ends (R258) -/

/-- A step of the hart ends the run, or counts one more instruction of at most MAX_STEPS. -/
theorem HartEnds.ends_or_counts {s t : State} (h : s.status = .running) (he : HartEnds s t) :
    t.status ≠ .running ∨
      (t.status = .running ∧ s.steps < s.config.maxSteps ∧ t.steps = s.steps + 1 ∧ t.config = s.config) := by
  cases he with
  | limit => exact .inl nofun
  | trap c => exact .inl nofun
  | instr i t hb he =>
    obtain ⟨_, -, hs, hr, -, -, hc, -, -⟩ | ⟨r, hr, -⟩ | ⟨c, hr, -⟩ := he.outcome
    · exact .inr ⟨hr.trans h, hb, hs, hc⟩
    · exact .inl (by simp [hr])
    · exact .inl (by simp [hr])

/-- The run ends within one step more than the `n` it may still count. -/
theorem run_ends {n : Nat} {s : State} (h : s.status = .running) (hn : s.config.maxSteps - s.steps = n) :
    ∃ k t, k ≤ n + 1 ∧ Sys2Proof.core.run k s = .next t ∧ t.status ≠ .running := by
  induction n generalizing s with
  | zero =>
    obtain ⟨t, ht, he⟩ := exists_hartEnds h
    obtain hr | ⟨-, hb, -, -⟩ := he.ends_or_counts h
    · exact ⟨1, t, by omega, core_run_succ 0 ht, hr⟩
    · omega
  | succ n ih =>
    obtain ⟨t, ht, he⟩ := exists_hartEnds h
    obtain hr | ⟨hr, hb, hs, hc⟩ := he.ends_or_counts h
    · exact ⟨1, t, by omega, core_run_succ 0 ht, hr⟩
    · obtain ⟨k, u, hk, hu, hur⟩ := ih hr (by rw [hc, hs]; omega)
      exact ⟨k + 1, u, by omega, (core_run_succ k ht).trans hu, hur⟩

/-! ## No step reads the log (R26) -/

/-- With any log, `f` leads from `s` to the same state, with the same entries appended to that log. -/
def AppendsToLog (f : State → Result) (s : State) : Prop :=
  ∃ (t : State) (added : List LogEntry), t.log = s.log ++ added ∧
    ∀ l : List LogEntry, f (s.withLog l) = .next (t.withLog (l ++ added))

section
variable {f : State → Result} {s : State}

theorem appendsToLog_of_quiet {t : State} (ht : t.log = s.log) (h : ∀ l, f (s.withLog l) = .next (t.withLog l)) :
    AppendsToLog f s :=
  ⟨t, [], by simp [ht], fun l => by simp [h l]⟩

theorem appendsToLog_of_takeTrap {c : TrapCause} (h : ∀ l, f (s.withLog l) = .next ((s.withLog l).takeTrap c)) :
    AppendsToLog f s :=
  ⟨s.takeTrap c, [.trap c s.pc], rfl, h⟩

/-! The shared ways for an instruction to end, when the values and addresses they are given do not depend on the log. -/

theorem appendsToLog_of_writeBack {rd : Reg} {v : State → Word} (h : ∀ u, f u = writeBack rd (v u) u)
    (hv : ∀ l, v (s.withLog l) = v s) : AppendsToLog f s := by
  refine appendsToLog_of_quiet (t := (s.setX rd (v s)).retire) (by simp) fun l => ?_
  rw [h, hv, writeBack, State.withLog_setX, State.withLog_retire]

theorem appendsToLog_of_loadInto {rd : Reg} {n : Nat} {extend : BitVec (8 * n) → Word} {addr : State → Word}
    (h : ∀ u, f u = loadInto rd (addr u) n extend u) (ha : ∀ l, addr (s.withLog l) = addr s) : AppendsToLog f s := by
  have hr : ∀ l, memRead (s.withLog l) (addr s) n = memRead s (addr s) n := fun _ => rfl
  cases hm : memRead s (addr s) n with
  | error c =>
    refine appendsToLog_of_takeTrap (c := c) fun l => ?_
    rw [h, ha, loadInto, hr, hm]
  | ok v =>
    refine appendsToLog_of_quiet (t := (s.setX rd (extend v)).retire) (by simp) fun l => ?_
    rw [h, ha, loadInto, hr, hm]
    simp [writeBack]

theorem appendsToLog_of_storeAt {n : Nat} {addr : State → Word} {v : State → BitVec (8 * n)}
    (h : ∀ u, f u = storeAt (addr u) n (v u) u) (ha : ∀ l, addr (s.withLog l) = addr s)
    (hv : ∀ l, v (s.withLog l) = v s) : AppendsToLog f s := by
  have hw : ∀ l, memWrite (s.withLog l) (addr s) n (v s) = memWrite s (addr s) n (v s) := fun _ => rfl
  cases hm : memWrite s (addr s) n (v s) with
  | error c =>
    refine appendsToLog_of_takeTrap (c := c) fun l => ?_
    rw [h, ha, hv, storeAt, hw, hm]
  | ok m =>
    refine appendsToLog_of_quiet (t := (s.setMem m).retire) rfl fun l => ?_
    rw [h, ha, hv, storeAt, hw, hm]
    simp

theorem appendsToLog_of_jumpAndLink {rd : Reg} {target : State → Word} (h : ∀ u, f u = jumpAndLink rd (target u) u)
    (ht : ∀ l, target (s.withLog l) = target s) : AppendsToLog f s := by
  by_cases ha : (target s).toNat % 4 ≠ 0
  · refine appendsToLog_of_takeTrap (c := .misaligned .jump (target s)) fun l => ?_
    rw [h, ht, jumpAndLink, if_pos ha]
  · refine appendsToLog_of_quiet (t := (s.setX rd (s.pc + 4#32)).retireTo (target s)) (by simp) fun l => ?_
    rw [h, ht, jumpAndLink, if_neg ha]
    simp

theorem appendsToLog_of_branchIf {taken : State → Bool} {target : State → Word}
    (h : ∀ u, f u = branchIf (taken u) (target u) u) (hc : ∀ l, taken (s.withLog l) = taken s)
    (ht : ∀ l, target (s.withLog l) = target s) : AppendsToLog f s := by
  by_cases hb : taken s = true
  · by_cases ha : (target s).toNat % 4 ≠ 0
    · refine appendsToLog_of_takeTrap (c := .misaligned .jump (target s)) fun l => ?_
      rw [h, ht, hc, branchIf, if_pos hb, if_pos ha]
    · refine appendsToLog_of_quiet (t := s.retireTo (target s)) rfl fun l => ?_
      rw [h, ht, hc, branchIf, if_pos hb, if_neg ha, State.withLog_retireTo]
  · refine appendsToLog_of_quiet (t := s.retire) rfl fun l => ?_
    rw [h, hc, branchIf, if_neg hb, State.withLog_retire]

end

/-- No instruction looks at the log: registers, pc, memory and the parameters give it all its values. -/
theorem appendsToLog_exec (i : Instr) (s : State) : AppendsToLog (exec i) s := by
  cases i with
  | jal | jalr => exact appendsToLog_of_jumpAndLink (fun _ => rfl) fun _ => rfl
  | beq | bne | blt | bge | bltu | bgeu => exact appendsToLog_of_branchIf (fun _ => rfl) (fun _ => rfl) fun _ => rfl
  | lb | lh | lw | lbu | lhu => exact appendsToLog_of_loadInto (fun _ => rfl) fun _ => rfl
  | sb | sh | sw => exact appendsToLog_of_storeAt (fun _ => rfl) (fun _ => rfl) fun _ => rfl
  | lui | auipc | addi | slti | sltiu | xori | ori | andi | slli | srli | srai | add | sub | sll | slt | sltu | xor
  | srl | sra | or | and => exact appendsToLog_of_writeBack (fun _ => rfl) fun _ => rfl
  | fence => exact appendsToLog_of_quiet (t := s.retire) rfl fun _ => rfl
  | ecall => exact appendsToLog_of_quiet (t := s.haltWith .exit) rfl fun _ => rfl
  | ebreak => exact appendsToLog_of_quiet (t := s.haltWith .breakpoint) rfl fun _ => rfl

/-- Neither the bound, nor the fetch, nor the decoder looks at the log. -/
theorem appendsToLog_step {s : State} (h : s.status = .running) : AppendsToLog step s := by
  by_cases hb : s.config.maxSteps ≤ s.steps
  · exact ⟨s.haltAtLimit, [.stepLimit s.pc], rfl, fun l => step_at_bound (s := s.withLog l) h hb⟩
  have hb := Nat.not_le.mp hb
  have hfl : ∀ l, fetch (s.withLog l) s.pc = fetch s s.pc := fun _ => rfl
  cases hf : fetch s s.pc with
  | error c =>
    exact appendsToLog_of_takeTrap (c := c) fun l => step_fetch_trap (s := s.withLog l) h hb ((hfl l).trans hf)
  | ok w =>
    cases hd : decode w with
    | error e =>
      exact appendsToLog_of_takeTrap fun l =>
        step_decode_trap (s := s.withLog l) h hb ((hfl l).trans hf) hd
    | ok i =>
      obtain ⟨t, added, ht, hl⟩ := appendsToLog_exec i s
      exact ⟨t, added, ht, fun l => (step_exec (s := s.withLog l) h hb ((hfl l).trans hf) hd).trans (hl l)⟩

/-! ## The launch of a word (log 20) -/

theorem tableWord_toNat (w : Word) : tableWord 32 w.toNat = w := by
  rw [tableWord, Nat.mod_eq_of_lt w.isLt, BitVec.ofNat_toNat, BitVec.setWidth_eq]

theorem launchPc_aligned (s : State) : s.launchPc.toNat % 4 = 0 := by
  unfold State.launchPc
  split
  · exact And.left ‹_›
  · rfl

theorem lt_imageReaching_length (image : List Word) (k : Nat) (w : Word) : k < (imageReaching image k w).length := by
  unfold imageReaching
  split
  · assumption
  · simp only [List.length_append, List.length_replicate, List.length_singleton]
    omega

/-- The word is what the launched machine fetches. -/
theorem fetch_launchWord (s : State) (w : Word) : fetch (s.launchWord w) (s.launchWord w).pc = .ok w := by
  have ha := launchPc_aligned s
  have hi := lt_imageReaching_length s.image (s.launchPc.toNat / 4) w
  have he : s.launchPc.toNat < 4 * (imageReaching s.image (s.launchPc.toNat / 4) w).length := by omega
  exact fetch_ok_iff.mpr ⟨he, ha, (Memory.readLE_writeLE s.mem s.launchPc.toNat 4 w).symm⟩

theorem launchWord_steps_lt {s : State} (w : Word) (h : 0 < s.config.maxSteps) :
    (s.launchWord w).steps < (s.launchWord w).config.maxSteps := by
  show (if s.steps < s.config.maxSteps then s.steps else 0) < s.config.maxSteps
  split
  · assumption
  · exact h

/-! ## The obligations -/

/-- Settles O13: the bytes at the pc are the word that is fetched. -/
theorem stepRunsTheDecodedInstruction : Obligations.StepRunsTheDecodedInstruction := by
  unfold Obligations.StepRunsTheDecodedInstruction
  intro s i h hb hi ha hd
  exact step_exec h hb (fetch_ok_iff.mpr ⟨hi, ha, (Memory.readLE_four s.mem s.pc.toNat).symm⟩) hd

/-- Settles O14: a word that matches no row does not decode (`decode_error_iff`). -/
theorem fetchAndDecodeTrap : Obligations.FetchAndDecodeTrap := by
  unfold Obligations.FetchAndDecodeTrap
  intro s h hb
  refine ⟨fun hf => ⟨_, step_fetch_trap h hb (fetch_outOfBounds hf), trapped_takeTrap _ s⟩, fun w hf hn => ?_⟩
  obtain ⟨e, hd⟩ := (decode_error_iff w).mpr hn
  exact ⟨_, step_decode_trap h hb hf hd, trapped_takeTrap _ s⟩

/-- Settles O15: `step_at_bound`. -/
theorem stepLimitRule : Obligations.StepLimitRule := by
  unfold Obligations.StepLimitRule
  intro s h hb
  exact ⟨_, step_at_bound h hb, rfl, rfl, rfl, rfl, fun _ => rfl, fun _ => rfl, rfl, rfl, rfl, rfl⟩

/-- Settles O56: induction on the instructions the run may still count. -/
theorem everyRunEnds : Obligations.EveryRunEnds := by
  unfold Obligations.EveryRunEnds
  intro s h
  exact run_ends h rfl

/-- Settles O57: `appendsToLog_step`, whose `t` is the step's next state when the log is the state's own. -/
theorem hartNeverReadsTheLog : Obligations.HartNeverReadsTheLog := by
  unfold Obligations.HartNeverReadsTheLog
  intro s t h hs
  obtain ⟨u, added, hu, hl⟩ := appendsToLog_step h
  have hsu : step s = .next u := by simpa [← hu] using hl s.log
  cases hsu.symm.trans hs
  exact ⟨added, hu, hl⟩

/-- Settles O58: the launched machine is running below the bound, and fetches the word. -/
theorem launchedWordRuns : Obligations.LaunchedWordRuns := by
  unfold Obligations.LaunchedWordRuns
  intro s w _ hmax
  rw [State.withFetchWord, tableWord_toNat]
  exact ⟨fun i hd => step_exec rfl (launchWord_steps_lt w hmax) (fetch_launchWord s w) hd, fun _ => rfl⟩

end Sys2Proof.Machine
end

section
/-! Proofs: the assembler (30_encoding.md Part B): its words are encodings, one per instruction line, an undefined label
fails before anything is encoded, and the ranges of its operands. -/

namespace Sys2Proof.Machine

/-! ## The passes as one chain (R93, R94) -/

/-- The check of references comes before pass 2, so its error is that of the assembly. -/
theorem assembleText_error_of_checkReferences {text : List Char} {sts : List Stmt} {t : LabelTable} {e : AsmStop}
    (hp : parseLines 1 (splitLines (unescape text)) = .ok sts) (hl : labelPass 0 sts [] = .ok t)
    (hc : checkReferences t sts = .error e) : assembleText text = .error e := by
  rw [assembleText, assembleInstrs, hp]
  simp only [hl, hc]

/-- A text that assembles has parsed, and its words are the encodings of what pass 2 answers. -/
theorem exists_encodePass_of_assembleText {text : List Char} {ws : List Word} (h : assembleText text = .ok ws) :
    ∃ sts t is, parseLines 1 (splitLines (unescape text)) = .ok sts ∧ encodePass t 0 sts = .ok is ∧
      ws = is.map encode := by
  unfold assembleText at h
  split at h
  · cases h
  · rename_i is hi
    cases h
    unfold assembleInstrs at hi
    split at hi
    · cases hi
    · rename_i sts hp
      split at hi
      · cases hi
      · rename_i t _
        split at hi
        · cases hi
        · exact ⟨sts, t, is, hp, hi, rfl⟩

/-- Pass 2 answers one instruction per instruction line (R94). -/
theorem encodePass_length {t : LabelTable} {addr : Nat} {sts : List Stmt} {is : List Instr}
    (h : encodePass t addr sts = .ok is) : is.length = (sts.filter fun st => st.instr.isSome).length := by
  induction sts generalizing addr is with
  | nil => cases h; rfl
  | cons st sts ih =>
    rw [encodePass] at h
    split at h
    · rename_i hi
      rw [List.filter_cons_of_neg (by simp [hi])]
      exact ih h
    · rename_i hi
      split at h
      · cases h
      · split at h
        · cases h
        · rename_i hr
          cases h
          rw [List.filter_cons_of_pos (by simp [hi]), List.length_cons, List.length_cons, ih hr]

/-! ## References to labels (R93, R94) -/

/-- Pass 1 adds no entry for a name that no line defines. -/
theorem find_of_labelPass {l : List Char} {addr : Nat} {sts : List Stmt} {t t' : LabelTable}
    (h : labelPass addr sts t = .ok t') (hl : ∀ st ∈ sts, st.label ≠ some l) :
    LabelTable.find t' l = LabelTable.find t l := by
  induction sts generalizing addr t with
  | nil => cases h; rfl
  | cons st sts ih =>
    have hrest : ∀ st ∈ sts, st.label ≠ some l := fun st' hst => hl st' (List.mem_cons_of_mem st hst)
    rw [labelPass] at h
    split at h
    · exact ih h hrest
    · rename_i l' hl'
      split at h
      · cases h
      · have hne : l' ≠ l := by
          rintro rfl
          exact hl st List.mem_cons_self hl'
        rw [ih h hrest]
        simp [LabelTable.find, hne]

/-- A reference to a name without an entry fails, at that line or at an earlier one. -/
theorem checkReferences_undefined {t : LabelTable} {l : List Char} {sts : List Stmt} {st : Stmt} (hst : st ∈ sts)
    (hr : st.reference = some l) (hf : LabelTable.find t l = none) :
    ∃ line, checkReferences t sts = .error (.failed (.undefinedSymbol line)) := by
  induction sts with
  | nil => cases hst
  | cons st' sts ih =>
    rw [checkReferences]
    rcases List.mem_cons.mp hst with rfl | hst
    · simp only [hr, hf]
      exact ⟨_, rfl⟩
    · split
      · exact ih hst
      · split
        · exact ih hst
        · exact ⟨_, rfl⟩

/-! ## Operand ranges (R97, R98) -/

theorem ofInt_toNat {n : Nat} {v : Int} (h0 : 0 ≤ v) (h : v < 2 ^ n) : ((BitVec.ofInt n v).toNat : Int) = v := by
  rw [BitVec.toNat_ofInt]
  have e : v % ((2 ^ n : Nat) : Int) = v := Int.emod_eq_of_lt h0 (by exact_mod_cast h)
  rw [e, Int.toNat_of_nonneg h0]

/-! ## The obligations -/

/-- Settles O46: every word is the encoding of a well-formed instruction (`assembleText_ok`), so `decode_encode`
applies. -/
theorem assembledWordsAreInstructions : Obligations.AssembledWordsAreInstructions := by
  unfold Obligations.AssembledWordsAreInstructions
  intro text ws h w hw
  obtain ⟨is, rfl, hwf⟩ := assembleText_ok h
  obtain ⟨i, hi, rfl⟩ := List.mem_map.mp hw
  exact ⟨i, hwf i hi, rfl, decode_encode (hwf i hi)⟩

/-- Settles O47: a name that no line defines is not in the table of pass 1, so the check of references, which comes
before pass 2, fails. -/
theorem oneWordPerInstructionLine : Obligations.OneWordPerInstructionLine := by
  unfold Obligations.OneWordPerInstructionLine
  intro text sts hp
  refine ⟨fun ws h => ?_, fun t st l ht hst hr hl => ?_⟩
  · obtain ⟨sts', t, is, hp', hi, rfl⟩ := exists_encodePass_of_assembleText h
    cases hp'.symm.trans hp
    rw [List.length_map, encodePass_length hi]
  · obtain ⟨line, hc⟩ := checkReferences_undefined hst hr (find_of_labelPass ht hl)
    exact ⟨line, assembleText_error_of_checkReferences hp ht hc⟩

/-- Settles O48: `BitVec.ofInt` keeps a value inside the range of its width. -/
theorem operandRangesRule : Obligations.OperandRangesRule := by
  unfold Obligations.OperandRangesRule
  intro line v
  refine ⟨?_, ?_, ?_, ?_, ?_⟩
  · rw [imm12Of]
    split
    · exact ⟨_, rfl, BitVec.toInt_ofInt_eq_self (by decide) (by omega) (by omega)⟩
    · rfl
  · rw [shamtOf]
    split
    · exact ⟨_, rfl, ofInt_toNat (by omega) (by omega)⟩
    · rfl
  · rw [imm20Of]
    split
    · exact ⟨_, rfl, ofInt_toNat (by omega) (by omega)⟩
    · rfl
  · rw [off13Of]
    split
    · rw [if_pos (by omega)]
      exact ⟨_, rfl, BitVec.toInt_ofInt_eq_self (by decide) (by omega) (by omega)⟩
    · rw [if_neg (by omega)]
  · rw [off21Of]
    split
    · rw [if_pos (by omega)]
      exact ⟨_, rfl, BitVec.toInt_ofInt_eq_self (by decide) (by omega) (by omega)⟩
    · rw [if_neg (by omega)]

end Sys2Proof.Machine
end

section
/-! Proofs: the host's calls (70_reset_and_hazards.md sections 1 and 3), and the states in which a step has no next
state. -/

namespace Sys2Proof.Machine

theorem hostCall_assemble_ok {text : List Char} {ws : List Word} {s : State} (ha : assembleText text = .ok ws)
    (hf : 4 * ws.length ≤ s.config.memSize) : hostCall (.assemble text) s = .next (loadImage ws s) := by
  rw [hostCall, callAssemble, ha]
  exact if_pos hf

theorem hostCall_assemble_failed {text : List Char} {e : AsmError} {s : State}
    (ha : assembleText text = .error (.failed e)) :
    hostCall (.assemble text) s =
      .next (State.reply { s with log := s.log ++ [.assembly e] } (.assemblyFailed e)) := by
  rw [hostCall, callAssemble, ha]

theorem hostCall_run_starts {s : State} (h : s.status = .assembled ∨ ∃ r, s.status = .halted r) :
    hostCall .run s = .next (startRun s) := by
  obtain h | ⟨r, h⟩ := h <;> rw [hostCall, callRun, h]

theorem hostCall_run_fails {s : State} (h : s.status = .uninitialized ∨ ∃ c, s.status = .trapped c) :
    hostCall .run s = .next (s.reply .invalidState) := by
  obtain h | ⟨c, h⟩ := h <;> rw [hostCall, callRun, h]

/-- Byte `j` of word `k` of a loaded image. -/
theorem loadImage_byte_inside {ws : List Word} (s : State) {k j : Nat} {w : Word} (hw : ws[k]? = some w) (hj : j < 4) :
    Memory.byte (loadImage ws s).mem (4 * k + j) = w.extractLsb' (8 * j) 8 := by
  rw [← flatMap_wordBytes_getD ws k j w hw hj]
  exact (Memory.ofBytes_byte 0 _ _).trans (if_pos (Nat.zero_le _))

theorem loadImage_byte_outside {ws : List Word} (s : State) {a : Nat} (ha : 4 * ws.length ≤ a) :
    Memory.byte (loadImage ws s).mem a = 0#8 := by
  refine Memory.byte_unlisted fun c hc => ?_
  have := Memory.ofBytes_below 0 _ c hc
  rw [flatMap_wordBytes_length] at this
  omega

theorem regList_length (s : State) : s.regList.length = 32 := by
  rw [State.regList, List.length_map, List.length_range]

theorem regList_getElem? (s : State) (r : Reg) : s.regList[r.toNat]? = some (s.x r) := by
  rw [State.regList, List.getElem?_map, List.getElem?_range r.isLt, Option.map_some, BitVec.ofNat_toNat,
    BitVec.setWidth_eq]

theorem listingLine_address (a : Nat) (w : Word) : (listingLine a w).address = a := by
  unfold listingLine
  split <;> rfl

theorem listingLine_word (a : Nat) (w : Word) : (listingLine a w).word = w := by
  unfold listingLine
  split <;> rfl

theorem listingLine_of_decode (a : Nat) {w : Word} {i : Instr} (h : decode w = .ok i) :
    listingLine a w = ⟨a, w, some i, disassemble i⟩ := by
  unfold listingLine
  simp only [h]

/-- While Running a step always has a next state. -/
theorem not_running_of_stop {s : State} (h : ∀ t, step s ≠ .next t) : s.status ≠ .running := by
  intro hr
  obtain ⟨t, ht, -⟩ := exists_hartEnds hr
  exact h t ht

/-! ## The obligations -/

/-- Settles O16: a running machine does not stop, and a host call only as `hostCall_refused` says. -/
theorem whereAStepStops : Obligations.WhereAStepStops := by
  unfold Obligations.WhereAStepStops
  intro s
  refine ⟨fun f => ⟨fun hf => ?_, fun ⟨hs, hc⟩ => step_host_none hs hc⟩, fun r hr => ?_⟩
  · have hs := not_running_of_stop (s := s) (by simp [hf])
    cases hc : s.calls with
    | nil => exact ⟨hs, rfl⟩
    | cons c cs => exact absurd ((step_host_call hs hc).symm.trans hf) (hostCall_no_fault c _ f)
  · have hs := not_running_of_stop (s := s) (by simp [hr])
    cases hc : s.calls with
    | nil => cases (step_host_none hs hc).symm.trans hr
    | cons c cs =>
      obtain ⟨text, rfl, hstop⟩ := hostCall_refused ((step_host_call hs hc).symm.trans hr)
      exact ⟨hs, text, cs, rfl, hstop⟩

/-- Settles O43: the call leaves the reset state but for log, parameters and the host's side. -/
theorem constructResets : Obligations.ConstructResets := by
  unfold Obligations.ConstructResets
  intro s cs h hc
  exact ⟨_, step_host_call h hc, rfl, fun _ => rfl, rfl, rfl, State.x_of_zeros rfl, rfl, rfl, rfl, rfl, rfl, rfl⟩

/-- Settles O44: memory is that of `loadImage`, the image's bytes and zeros after them. -/
theorem assembleLoadsTheImage : Obligations.AssembleLoadsTheImage := by
  unfold Obligations.AssembleLoadsTheImage
  intro s text cs ws h hc ha hf
  exact ⟨_, (step_host_call h hc).trans (hostCall_assemble_ok ha hf), rfl, rfl, rfl,
    fun _ _ _ hw hj => loadImage_byte_inside _ hw hj, fun _ hb => loadImage_byte_outside _ hb, State.x_of_zeros rfl,
    rfl, rfl, rfl, rfl, rfl, rfl⟩

/-- Settles O45: `hostCall_assemble_failed`, which touches the log and the replies alone. -/
theorem failedAssembleChangesNothing : Obligations.FailedAssembleChangesNothing := by
  unfold Obligations.FailedAssembleChangesNothing
  intro s text cs e h hc ha
  exact ⟨_, (step_host_call h hc).trans (hostCall_assemble_failed ha), rfl, rfl, rfl, rfl, rfl, rfl, rfl, rfl, rfl, rfl⟩

/-- Settles O49: in each of the four statuses the host's turn is `callRun`. -/
theorem runStartsOrFails : Obligations.RunStartsOrFails := by
  unfold Obligations.RunStartsOrFails
  intro s cs hc
  refine ⟨fun hs => ?_, fun hs => ?_⟩
  · have hn : s.status ≠ .running := by obtain h | ⟨r, h⟩ := hs <;> simp [h]
    exact ⟨_, (step_host_call hn hc).trans (hostCall_run_starts hs), rfl, rfl, rfl, fun _ => rfl, fun _ => rfl,
      rfl, rfl, rfl, rfl, rfl⟩
  · have hn : s.status ≠ .running := by obtain h | ⟨c, h⟩ := hs <;> simp [h]
    exact (step_host_call hn hc).trans (hostCall_run_fails hs)

/-- Settles O50: the dump is `State.regList`. -/
theorem getStateReports : Obligations.GetStateReports := by
  unfold Obligations.GetStateReports
  intro s cs h hc
  exact ⟨s.regList, regList_length s, regList_getElem? s, step_host_call h hc⟩

/-- Settles O51: line `k` is the `listingLine` of word `k`. -/
theorem getTextListsTheImage : Obligations.GetTextListsTheImage := by
  unfold Obligations.GetTextListsTheImage
  intro s cs h hc
  refine ⟨listingFrom 0 s.image, listingFrom_length 0 s.image, fun k w hw => ?_, step_host_call h hc⟩
  refine ⟨listingLine (0 + 4 * k) w, ?_, ?_, listingLine_word _ w, fun i hi => ?_⟩
  · rw [listingFrom_getElem, hw, Option.map_some]
  · rw [listingLine_address, Nat.zero_add]
  · rw [listingLine_of_decode _ hi]
    exact ⟨rfl, rfl⟩

end Sys2Proof.Machine
end

section
/-! Proofs: what every step of the whole machine keeps: the invariant of 10_state.md sections 3 to 8, and the table of
status changes (10_state.md section 5). The hart's steps are taken apart by `HartEnds`, the host's by `CallEnds`. -/

namespace Sys2Proof.Machine

/-! ## One inversion for both movers -/

/-- What a step leaves: the hart's turn while Running, else the effect of the host's next call. -/
theorem step_inv {s t : State} (h : step s = .next t) :
    (s.status = .running ∧ HartEnds s t) ∨
      (s.status ≠ .running ∧ ∃ c cs, s.calls = c :: cs ∧ CallEnds c { s with calls := cs } t) := by
  by_cases hr : s.status = .running
  · exact .inl ⟨hr, hartEnds_of_step hr h⟩
  · cases hc : s.calls with
    | nil => cases (step_host_none hr hc).symm.trans h
    | cons c cs => exact .inr ⟨hr, c, cs, rfl, hostCall_inv ((step_host_call hr hc).symm.trans h)⟩

/-! ## The invariant -/

theorem add_four_aligned {a : Word} (h : a.toNat % 4 = 0) : (a + 4#32).toNat % 4 = 0 := by
  rw [BitVec.toNat_add, BitVec.toNat_ofNat]
  omega

section
variable {s t : State}

/-- The invariant speaks of memory, the parameters, IMAGE, pc and steps alone. -/
theorem State.Inv.of_same_parts (h : s.Inv) (hm : t.mem = s.mem) (hc : t.config = s.config) (hi : t.image = s.image)
    (hp : t.pc.toNat % 4 = 0) (hs : t.steps ≤ s.config.maxSteps) : t.Inv where
  memWf := hm ▸ h.memWf
  memBelow := by rw [hm, hc]; exact h.memBelow
  legal := hc ▸ h.legal
  imageFits := by rw [State.imageEnd, hi, hc]; exact h.imageFits
  pcAligned := hp
  stepsBounded := hc ▸ hs

/-- A store inside the capacity keeps the memory's part of the invariant. -/
theorem State.Inv.setMem (h : s.Inv) {a n : Nat} (v : BitVec (8 * n)) (hb : a + n ≤ s.config.memSize) :
    (s.setMem (Memory.writeLE s.mem a n v)).Inv where
  memWf := Memory.writeLE_wf h.memWf a n v
  memBelow := Memory.writeLE_below h.memBelow hb v
  legal := h.legal
  imageFits := h.imageFits
  pcAligned := h.pcAligned
  stepsBounded := h.stepsBounded

theorem NextPc.aligned {i : Instr} {target : Word} (h : s.pc.toNat % 4 = 0) (hn : NextPc i s target) :
    target.toNat % 4 = 0 := by
  obtain rfl | ⟨-, ha⟩ := hn
  · exact add_four_aligned h
  · exact ha

theorem Ending.keeps_inv {i : Instr} (h : s.Inv) (hb : s.steps < s.config.maxSteps) (he : Ending i s t) : t.Inv := by
  cases he with
  | wrote rd v target _ hn =>
    exact h.of_same_parts (by simp) (by simp) (by simp) (hn.aligned h.pcAligned) (by simpa using hb)
  | moved target hn => exact h.of_same_parts rfl rfl rfl (hn.aligned h.pcAligned) hb
  | stored a n v _ hm => exact (h.setMem v hm).of_same_parts rfl rfl rfl (add_four_aligned h.pcAligned) hb
  | halted r => exact h.of_same_parts rfl rfl rfl h.pcAligned h.stepsBounded
  | trapped c => exact h.of_same_parts rfl rfl rfl h.pcAligned h.stepsBounded

theorem HartEnds.keeps_inv (h : s.Inv) (he : HartEnds s t) : t.Inv ∧ t.config = s.config := by
  cases he with
  | limit => exact ⟨h.of_same_parts rfl rfl rfl h.pcAligned h.stepsBounded, rfl⟩
  | trap c => exact ⟨h.of_same_parts rfl rfl rfl h.pcAligned h.stepsBounded, rfl⟩
  | instr i t hb he =>
    obtain ⟨-, hc, -, -⟩ := he.sameOutside
    exact ⟨he.keeps_inv h hb, hc⟩

/-- A loaded image meets the invariant whatever the state before: memory is made of the image's bytes, which fit. -/
theorem loadImage_inv {ws : List Word} (hl : s.config.Legal) (hf : 4 * ws.length ≤ s.config.memSize) :
    (loadImage ws s).Inv where
  memWf := Memory.ofBytes_wf 0 _
  memBelow := fun c hc => by
    have := Memory.ofBytes_below 0 _ c hc
    rw [flatMap_wordBytes_length] at this
    exact (by omega : c.1 < s.config.memSize)
  legal := hl
  imageFits := hf
  pcAligned := rfl
  stepsBounded := Nat.zero_le _

/-- A constructed State meets the invariant with any legal parameters: memory and IMAGE are empty. -/
theorem constructed_inv {log : List LogEntry} {config : Config} {calls : List HostCall} {replies : List Reply}
    (hl : config.Legal) :
    State.Inv { State.reset with log := log, config := config, calls := calls, replies := replies } where
  memWf := State.reset_mem_wf
  memBelow := nofun
  legal := hl
  imageFits := Nat.zero_le _
  pcAligned := rfl
  stepsBounded := Nat.zero_le _

theorem CallEnds.keeps_inv {c : HostCall} (h : s.Inv) (he : CallEnds c s t) : t.Inv ∧ t.config = s.config := by
  cases he with
  | constructed => exact ⟨constructed_inv h.legal, rfl⟩
  | loaded text ws _ _ hf => exact ⟨loadImage_inv h.legal hf, rfl⟩
  | started => exact ⟨h.of_same_parts rfl rfl rfl rfl (Nat.zero_le _), rfl⟩
  | failed | listed | notStarted | dumped | drained =>
    exact ⟨h.of_same_parts rfl rfl rfl h.pcAligned h.stepsBounded, rfl⟩

/-! ## Status changes (R22) -/

theorem Ending.statusMove {i : Instr} (h : s.status = .running) (he : Ending i s t) :
    StatusMove .hart s.status t.status := by
  obtain ⟨_, -, -, hs, -⟩ | ⟨r, hs, -⟩ | ⟨c, hs, -⟩ := he.outcome <;> rw [hs, h]
  · exact .retire
  · cases r with
    | exit => exact .ecall
    | breakpoint => exact .ebreak
    | stepLimitExceeded => exact .stepLimit
  · exact .trap c

theorem HartEnds.statusMove (h : s.status = .running) (he : HartEnds s t) : StatusMove .hart s.status t.status := by
  cases he with
  | limit => rw [h]; exact .stepLimit
  | trap c => rw [h]; exact .trap c
  | instr i t _ he => exact he.statusMove h

theorem CallEnds.statusMove {c : HostCall} (h : s.status ≠ .running) (he : CallEnds c s t) :
    StatusMove (.host c) s.status t.status := by
  cases he with
  | constructed => exact .construct _
  | loaded text => exact .assembleSucceeds text _ h
  | failed text => exact .assembleFails text _ h
  | listed => exact .getText _
  | dumped => exact .getState _
  | drained => exact .getLogs _
  | started _ hs =>
    obtain hs | ⟨r, hs⟩ := hs <;> rw [hs]
    · exact .runAssembled
    · exact .runHalted r
  | notStarted _ hs =>
    rw [State.reply_status]
    obtain hs | hs | ⟨c, hs⟩ := hs <;> rw [hs]
    · exact .runRefusedUninitialized
    · exact .runRefusedRunning
    · exact .runRefusedTrapped c

end

/-! ## The obligations -/

/-- Settles O53: the reset state is a constructed State with the parameters of `Config.initial`. -/
theorem resetMeetsInvariant : Obligations.ResetMeetsInvariant := by
  unfold Obligations.ResetMeetsInvariant
  exact ⟨constructed_inv (by decide), rfl, State.x_of_zeros rfl, fun _ => rfl, rfl, rfl, rfl⟩

/-- Settles O54: the host's call starts from the state without that call, which meets the invariant as well. -/
theorem stepKeepsInvariant : Obligations.StepKeepsInvariant := by
  unfold Obligations.StepKeepsInvariant
  intro s t h hs
  obtain ⟨-, he⟩ | ⟨-, c, cs, -, he⟩ := step_inv hs
  · exact he.keeps_inv h
  · exact CallEnds.keeps_inv (s := { s with calls := cs })
      (h.of_same_parts rfl rfl rfl h.pcAligned h.stepsBounded) he

/-- Settles O55: one row of the table for each way a step ends. -/
theorem statusChangesAreTheTable : Obligations.StatusChangesAreTheTable := by
  unfold Obligations.StatusChangesAreTheTable
  intro s t hs
  obtain ⟨hr, he⟩ | ⟨hr, c, cs, hc, he⟩ := step_inv hs
  · exact ⟨.hart, by rw [nextMover, if_pos hr], he.statusMove hr⟩
  · exact ⟨.host c, by rw [nextMover, if_neg hr, hc]; rfl,
      CallEnds.statusMove (s := { s with calls := cs }) hr he⟩

end Sys2Proof.Machine
end
